-- ==== Sys2Proof/Word.lean ====
section
/-! DEFINITION. The word types of the rollerlicht core. Every register of the core is unsigned (00_scope.md R11). -/

namespace Sys2Proof

/-- One channel of a pixel, one entry of the Lookup Table (00_scope.md R8, CH_BITS). -/
abbrev Byte := BitVec 8

/-- A counter value, a timestamp, a tick difference (00_scope.md R8, CNT_BITS). -/
abbrev U16 := BitVec 16

/-- The 32-bit data registers (10_state.md R16, R18 to R20). -/
abbrev U32 := BitVec 32

end Sys2Proof
end

