-- ==== Sys2Proof/Config.lean ====
section
/-! DEFINITION. What is fixed for the machine: the constants the document settles (00_scope.md R8), the OPEN
parameters with their constraints (R9, R10), what the environment may do between two phases, and the free values. -/

namespace Sys2Proof

/-! ### Constants of 00_scope.md R8 -/

/-- N_PIX, pixels in the Pixel Buffer (R8). -/
abbrev nPix : Nat := 54
/-- N_HALF, pixels per mirrored half (R8). -/
abbrev nHalf : Nat := 27
/-- N_CH, channels per pixel (R8). -/
abbrev nCh : Nat := 4
/-- FRAME_BYTES, bytes of the Pixel Buffer and of one wire frame (R8). -/
abbrev frameBytes : Nat := 216
/-- LUT_LEN, entries of the Lookup Table (R8). -/
abbrev lutLen : Nat := 216
/-- LUT_PER_LED, table samples per LED position (R8). -/
abbrev lutPerLed : Nat := 8
/-- TICK_FREQ_HZ, the nominal counter frequency (R8). -/
abbrev tickFreqHz : Nat := 15625
/-- EWMA_SHIFT, the smoothing weight 1/16 as a right shift (R8). -/
abbrev ewmaShift : Nat := 4
/-- IDLE_TIMEOUT_TICKS, "one full counter period" (R8). -/
abbrev idleTimeoutTicks : Nat := 65536
/-- CNT_PERIOD, counter ticks per wraparound (R8). -/
abbrev cntPeriod : Nat := 65536
/-- POS_MODULUS, the wrap modulus of the Position Offset (R8). -/
abbrev posModulus : Nat := 2 ^ 31
/-- IDLE_SCAN_LEN, the modulus of the idle scan position, 3 × 27 (R8). -/
abbrev idleScanLen : Nat := 81
/-- HUE_CYCLE, one hue cycle in table-index units (R9: "decided, not open"). -/
abbrev hueCycle : Nat := 432
/-- T_RESET_MIN in picoseconds, 80 µs (R8). -/
abbrev tResetMin : Nat := 80000000

/-! ### OPEN parameters -/

/-- The parameters the document names without a value (00_scope.md R9). Durations are in picoseconds, the unit that
holds the reference T_CLK of 62.5 ns, but for T_SETTLE (microseconds, the unit of `delay`). -/
structure Params where
  /-- DEBOUNCE_TICKS, the minimum accepted capture period. -/
  debounceTicks : Nat
  /-- WHEEL_CIRCUMFERENCE_MM. -/
  wheelCircumferenceMm : Nat
  /-- TICKS_PER_REV of the speed formula. -/
  ticksPerRev : Nat
  /-- SPEED_SCALE, speed LSBs per mm/s. -/
  speedScale : Nat
  /-- K_NUM, numerator of the position constant K. -/
  kNum : Nat
  /-- K_DEN, denominator of the position constant K. -/
  kDen : Nat
  /-- IDLE_RATE_NUM. -/
  idleRateNum : Nat
  /-- IDLE_RATE_DEN. -/
  idleRateDen : Nat
  /-- IDLE_ATTEN, right shift of the idle sum. -/
  idleAtten : Nat
  /-- RAINBOW_SPEEDUP, the "fixed speed-up multiplier". -/
  rainbowSpeedup : Nat
  /-- RAINBOW_ATTEN, right shift of the rainbow channels. -/
  rainbowAtten : Nat
  /-- LUT, the contents of the Lookup Table (10_state.md R35, R36). -/
  lut : List Byte
  /-- T_SETTLE in microseconds. -/
  tSettle : Nat
  /-- T_RESET, the latch low time the encoder holds. -/
  tReset : Nat
  /-- T_CLK, clock period of the slot timer (40_serial_encoder.md R80). -/
  tClk : Nat
  /-- SLOT_CYCLES, clock periods per slot (R80). -/
  slotCycles : Nat
  /-- DUTY0_CYCLES, high clock periods of a 0-bit (R80). -/
  duty0Cycles : Nat
  /-- DUTY1_CYCLES, high clock periods of a 1-bit (R80). -/
  duty1Cycles : Nat
  deriving DecidableEq, Repr

/-- SPEED_NUM = WHEEL_CIRCUMFERENCE_MM × TICK_FREQ_HZ × SPEED_SCALE (00_scope.md R9). -/
def Params.speedNum (p : Params) : Nat := p.wheelCircumferenceMm * tickFreqHz * p.speedScale

/-- T_SLOT, the bit slot period: SLOT_CYCLES clock periods (40_serial_encoder.md R80; about 1.25 µs, 00_scope.md R8). -/
def Params.tSlot (p : Params) : Nat := p.slotCycles * p.tClk

/-- T0H, the high time of a 0-bit (R80; about 300 ns, R8). -/
def Params.t0h (p : Params) : Nat := p.duty0Cycles * p.tClk

/-- T1H, the high time of a 1-bit (R80; about 600 ns, R8). -/
def Params.t1h (p : Params) : Nat := p.duty1Cycles * p.tClk

/-- The bytes never rise. -/
def neverRises : List Byte → Bool
  | a :: b :: rest => decide (b ≤ a) && neverRises (b :: rest)
  | _ => true

/-- The bytes rise to a crest and never rise after it. -/
def risesThenFalls : List Byte → Bool
  | a :: b :: rest => if a ≤ b then risesThenFalls (b :: rest) else neverRises (b :: rest)
  | _ => true

/-- "One half period (a single hump)" (10_state.md R36): one rise and one fall, and a crest above both ends. DEDUCED (log
29): what the spec's word means of a list of bytes. -/
def singleHump (table : List Byte) : Bool :=
  risesThenFalls table && table.any (fun v => decide (table.headD 0 < v))
    && table.any (fun v => decide (table.getLastD 0 < v))

/-- The constraints of 00_scope.md R10 and the types of R9, and what 10_state.md R36 settles of the table. R10 (h), T0H < T1H
< T_SLOT, is stated on the clock counts. DEDUCED (log 4): a high pulse lasts at least one clock period. -/
def Params.legal (p : Params) : Bool :=
  decide (1 ≤ p.debounceTicks) && decide (p.debounceTicks ≤ 300)
    && decide (1 ≤ p.wheelCircumferenceMm) && decide (1 ≤ p.ticksPerRev) && decide (1 ≤ p.speedScale)
    && decide (p.speedNum < 2 ^ 32)
    && decide (1 ≤ p.kNum) && decide (1 ≤ p.kDen)
    && decide (1 ≤ p.idleRateNum) && decide (1 ≤ p.idleRateDen)
    && decide (1 ≤ p.idleAtten) && decide (p.idleAtten ≤ 8)
    && decide (1 ≤ p.rainbowSpeedup) && decide (p.rainbowAtten ≤ 7)
    && decide (p.lut.length = lutLen)
    && decide (tResetMin ≤ p.tReset)
    && decide (p.duty0Cycles < p.duty1Cycles) && decide (p.duty1Cycles < p.slotCycles)
    && decide (1 ≤ p.tClk) && decide (1 ≤ p.duty0Cycles) && singleHump p.lut

/-- A configuration: parameters that meet their constraints. An illegal one (93_implementation_defined.md U10,
treatment "refuse") cannot be written down. -/
structure Config extends Params where
  isLegal : toParams.legal = true
  deriving DecidableEq, Repr

/-- The reference contents of the Lookup Table (10_state.md R35): `floor(255 × sin²(π k / 216) + 1/2)`. -/
def refLut : List Byte :=
  [0, 0, 0, 0, 1, 1, 2, 3, 3, 4, 5, 6, 8, 9, 10, 12, 14, 15, 17, 19, 21, 23, 25, 27] ++
  [30, 32, 35, 37, 40, 43, 46, 48, 51, 54, 57, 61, 64, 67, 70, 74, 77, 80, 84, 87, 91, 95, 98, 102] ++
  [105, 109, 113, 116, 120, 124, 128, 131, 135, 139, 142, 146, 150, 153, 157, 160, 164, 168, 171, 175, 178, 181, 185, 188] ++
  [191, 194, 198, 201, 204, 207, 209, 212, 215, 218, 220, 223, 225, 228, 230, 232, 234, 236, 238, 240, 241, 243, 245, 246] ++
  [247, 249, 250, 251, 252, 252, 253, 254, 254, 255, 255, 255, 255, 255, 255, 255, 254, 254, 253, 252, 252, 251, 250, 249] ++
  [247, 246, 245, 243, 241, 240, 238, 236, 234, 232, 230, 228, 225, 223, 220, 218, 215, 212, 209, 207, 204, 201, 198, 194] ++
  [191, 188, 185, 181, 178, 175, 171, 168, 164, 160, 157, 153, 150, 146, 142, 139, 135, 131, 128, 124, 120, 116, 113, 109] ++
  [105, 102, 98, 95, 91, 87, 84, 80, 77, 74, 70, 67, 64, 61, 57, 54, 51, 48, 46, 43, 40, 37, 35, 32] ++
  [30, 27, 25, 23, 21, 19, 17, 15, 14, 12, 10, 9, 8, 6, 5, 4, 3, 3, 2, 1, 1, 0, 0, 0]

/-- The reference parameters of 00_scope.md R9. T_SETTLE has no reference
value. DESIGN CHOICE (log 26): 0. Unsafe where a claim rests on it. -/
def refParams : Params where
  debounceTicks := 128
  wheelCircumferenceMm := 2100
  ticksPerRev := 1
  speedScale := 1
  kNum := 4608
  kDen := 125
  idleRateNum := 1
  idleRateDen := 1024
  idleAtten := 1
  rainbowSpeedup := 2
  rainbowAtten := 2
  lut := refLut
  tSettle := 0
  tReset := 80000000
  tClk := 62500
  slotCycles := 20
  duty0Cycles := 5
  duty1Cycles := 10

/-- The reference configuration (00_scope.md R9), which State.reset carries. DESIGN CHOICE (log 4): the parameters are
OPEN. Unsafe where a claim rests on a value of it. -/
def refConfig : Config where
  toParams := refParams
  isLegal := by decide +kernel

/-! ### What the environment may do -/

/-- One thing the boundary device does between two phases. The first three are what 60_exceptions.md R150 and R149 say it
does; the last three are the free draws of the spec's test scripts (93_implementation_defined.md U4). None of them clears
a pending flag: only a poll does (60_exceptions.md R141). DESIGN CHOICE (log 28): a draw may still answer more than the
counter alone could. Safe: more behaviours. -/
inductive BoundaryEvent where
  /-- The free-running counter advances by `n` ticks (R150 (a), (c)). -/
  | ticks (n : Nat)
  /-- The sensor edge detector fires (R150 (b)). -/
  | edge
  /-- The slot timer runs on by `ps` picoseconds (R149). -/
  | slotTime (ps : Nat)
  /-- A capture event with a timestamp drawn freely, script line `cap <ts>` (30_encoding.md R72). The line `cap -` is no
  event. -/
  | drawCapture (ts : U16)
  /-- An overflow event drawn freely, script line `ovf 1` (R72). The line `ovf 0` is no event. -/
  | drawOverflow
  /-- The counter value drawn freely, script line `elapsed <now>` (R72). It sets no overflow flag, wherever it lies: the
  scripts draw the overflow by a line of its own (log 28). -/
  | drawCounter (now : U16)
  deriving DecidableEq, Repr

/-! ### Free values: opaque, nothing can evaluate them -/

/-- What the boundary device does before a phase that no listed input covers: a free value, a fresh one for each value
of the counter `State.draws` (93_implementation_defined.md U4, U11: "any value"; log 3). Safe: it allows every
behaviour. -/
opaque Config.freeSegment : Nat → List BoundaryEvent

/-- The instantaneous speed of a period of 0, as a function of SPEED_NUM: the rules give none, because no dispatch
reaches the division with it (60_exceptions.md R138; log 11). Safe: a free value. -/
opaque Config.zeroPeriodSpeed : Nat → U32

end Sys2Proof
end

