-- ==== Sys2Proof/Machine/Memory.lean ====
section
/-! DEFINITION. The Pixel Buffer as plain data: a list of (address, byte) cells in one canonical form, so that equal
buffers are equal lists (20_memory.md R41 to R45). The byte address is 4 × pixel index + channel, channels in the order
g, r, b, w (R42). DESIGN CHOICE (log 6): the spec gives the order, not an address. Safe: no operation shows it. -/

namespace Sys2Proof.Machine

/-- A memory: cells in strictly rising address order, none equal to what an unlisted address reads as. -/
abbrev Memory := List Host.Cell

/-- What an unlisted address reads as: the reset value of the Pixel Buffer, "all zero" (10_state.md R34, R39). -/
def Memory.unlisted : Byte := 0

/-- The byte at an address. -/
def Memory.read : Memory → Nat → Byte
  | [], _ => Memory.unlisted
  | (k, v) :: rest, a => if k = a then v else Memory.read rest a

/-- A memory without the cell of an address. -/
def Memory.erase : Memory → Nat → Memory
  | [], _ => []
  | (k, x) :: rest, a => if k = a then Memory.erase rest a else (k, x) :: Memory.erase rest a

/-- A memory with a cell put in front of the first higher address. -/
def Memory.insert : Memory → Nat → Byte → Memory
  | [], a, v => [(a, v)]
  | (k, x) :: rest, a, v => if a < k then (a, v) :: (k, x) :: rest else (k, x) :: Memory.insert rest a v

/-- A memory with one byte written; writing what an unlisted address reads as leaves no cell. -/
def Memory.write (m : Memory) (a : Nat) (v : Byte) : Memory :=
  if v = Memory.unlisted then m.erase a else (m.erase a).insert a v

/-- Canonical from an address on: every cell at that address or above, addresses strictly rising, no cell equal to
what an unlisted address reads as. -/
def Memory.wfFrom : Nat → Memory → Bool
  | _, [] => true
  | lo, (k, x) :: rest => decide (lo ≤ k) && decide (x ≠ Memory.unlisted) && Memory.wfFrom (k + 1) rest

/-- The canonical form. -/
def Memory.wf (m : Memory) : Bool := Memory.wfFrom 0 m

/-- No cell is listed at or above an address: the memory lies in the address space `0 .. hi - 1`. -/
def Memory.below (hi : Nat) (m : Memory) : Bool := m.all fun c => decide (c.1 < hi)

end Sys2Proof.Machine
end

