-- ==== Sys2Proof/Machine/State.lean ====
section
/-! DEFINITION. The state of the core and of its boundary device (10_state.md), the fault and refusal reasons, and the
state after reset (10_state.md R39). One structure per unit, as 44_sequencer.md R127 asks ("explicit state structs"). -/

namespace Sys2Proof.Machine

/-- The "boolean Idle/Active mode" (10_state.md R23). -/
inductive Mode where
  /-- speed-driven rainbow; encoded 0 (R23) -/
  | active
  /-- breathing pulse; encoded 1 (R23) -/
  | idle
  deriving DecidableEq, Repr

/-- The encoder's stretch of a transmission (10_state.md R29). -/
inductive EncState where
  /-- ENC_IDLE: not transmitting -/
  | idle
  /-- ENC_SYNC: waiting for the first slot boundary -/
  | sync
  /-- ENC_SHIFT: emitting slots -/
  | shift
  /-- ENC_LATCH: holding the line low for T_RESET -/
  | latch
  deriving DecidableEq, Repr

/-- A pixel, four bytes in storage and wire order (20_memory.md R42). -/
structure Pixel where
  g : Byte
  r : Byte
  b : Byte
  w : Byte
  deriving DecidableEq, Repr

/-- One entry of the wire trace, durations in picoseconds (00_scope.md R12, 30_encoding.md R62). -/
inductive WireEvent where
  /-- One bit slot: high for `high`, then low for `low` (`emit(h, l)`). -/
  | slot (high low : Nat)
  /-- A low interval (`emit_low(d)`). -/
  | low (d : Nat)
  deriving DecidableEq, Repr

/-- The result of a micro-operation or boundary primitive run by itself (30_encoding.md R65, R66). -/
inductive Returned where
  /-- No result yet. -/
  | nothing
  /-- GETPIX: the 32 bits `g ‖ r ‖ b ‖ w`. -/
  | pixel (p : Pixel)
  /-- LUTW: 8 bits. -/
  | sample (v : Byte)
  /-- readCaptureEvent: a timestamp or none. -/
  | capture (ts : Option U16)
  /-- readOverflowEvent: the flag. -/
  | overflow (v : Bool)
  /-- currentCounterValue: the counter. -/
  | counter (now : U16)
  deriving DecidableEq, Repr

/-- SPD, the Speed Estimator: the document's Speed State and the overflow window flag (10_state.md R16 to R18, R23, R24). -/
structure Spd where
  /-- smoothed speed (R16) -/
  speed : U32
  /-- last_ts, "last accepted capture timestamp" (R17) -/
  lastTs : U16
  /-- "ticks-since-last-accepted-capture", saturating (R18) -/
  since : U32
  /-- mode (R23) -/
  mode : Mode
  /-- cap_seen, "a capture was accepted since the previous overflow" (R24) -/
  capSeen : Bool
  deriving DecidableEq, Repr

/-- POS, the Position Integrator (10_state.md R19, R21, R22). -/
structure Pos where
  /-- the Position Offset (R19) -/
  offset : U32
  /-- prev_now, the counter value of the previous ELAPSED (R21) -/
  prevNow : U16
  /-- ticks since the last iteration (R22) -/
  elapsed : U16
  deriving DecidableEq, Repr

/-- REN, the Animation Engine: the idle accumulator and the Pixel Buffer (10_state.md R20, R34). -/
structure Ren where
  /-- idle_time (R20) -/
  idleTime : U32
  /-- PB, the Pixel Buffer (R34) -/
  pb : Memory
  deriving DecidableEq, Repr

/-- ENC, the serial encoder (10_state.md R27 to R29). -/
structure Enc where
  /-- pix_idx (R27) -/
  pixIdx : BitVec 6
  /-- ch_idx, 0 = g, 1 = r, 2 = b, 3 = w (R27) -/
  chIdx : BitVec 2
  /-- bit_idx, 7 down to 0 (R27) -/
  bitIdx : BitVec 3
  /-- the level of the serial line (R28) -/
  dout : Bool
  /-- duty_sel, the threshold loaded for the current slot (R28) -/
  dutySel : Bool
  /-- enc_state (R29) -/
  encState : EncState
  deriving DecidableEq, Repr

/-- The slot timer: it "counts clock periods T_CLK from 0 to SLOT_CYCLES − 1 and wraps; the tick is the wrap"
(40_serial_encoder.md R80). -/
structure SlotTimer where
  /-- clock periods since the last tick -/
  count : Nat
  /-- picoseconds into the current clock period -/
  within : Nat
  deriving DecidableEq, Repr

/-- The boundary device (10_state.md R31 to R33, R38 (c)). -/
structure Bnd where
  /-- cnt, the free-running counter (R31) -/
  cnt : U16
  /-- cap_flag (R32) -/
  capFlag : Bool
  /-- cap_latch (R32) -/
  capLatch : U16
  /-- ovf_flag (R33) -/
  ovfFlag : Bool
  /-- the slot timer (R38 (c), 40_serial_encoder.md R80, 70_reset_and_hazards.md R154) -/
  slot : SlotTimer
  deriving DecidableEq, Repr

/-- The whole machine. The last six fields are the model's own or configuration (INVENTORY.md, State). -/
structure State where
  /-- the number of the Control Loop step in progress (10_state.md R26) -/
  phase : BitVec 4
  spd : Spd
  pos : Pos
  ren : Ren
  enc : Enc
  bnd : Bnd
  /-- The configuration, read-only (10_state.md R30 (a); log 4). -/
  cfg : Config
  /-- The wire trace, newest entry first (30_encoding.md R62; log 15). -/
  wire : List WireEvent
  /-- The result of the last micro-operation or primitive run by itself (log 14). -/
  returned : Returned
  /-- Picoseconds spent in slots, waits, latches and delays (log 8). -/
  time : Nat
  /-- What the boundary device does before each of the coming phases (log 3). -/
  env : List (List BoundaryEvent)
  /-- The free values of the environment drawn so far (log 3). -/
  draws : Nat
  deriving DecidableEq, Repr

/-- Why a step stops. -/
inductive Fault where
  /-- Raised by step, and by nothing else, on a phase outside 1..8: "a model that keeps the `phase` register treats a
  state with `phase` outside 1..8 as a fault (no step)" (30_encoding.md R70). Safe: no such state is reached. -/
  | illegalPhase (phase : BitVec 4)
  deriving DecidableEq, Repr

/-- Why an operation has no meaning. -/
inductive Refusal where
  /-- Raised by exec's arm of an operation that has no meaning yet. No arm raises it. Safe. -/
  | notModelled (mnemonic : String)
  deriving DecidableEq, Repr

/-- The state after reset (10_state.md R39). The spec leaves `cnt`, `cap_latch` and the slot timer's position
unspecified. DESIGN CHOICE (log 5): 0. Unsafe where a claim rests on them. The configuration is the reference one (log 4). -/
def State.reset : State where
  phase := 1
  spd := { speed := 0, lastTs := 0, since := 0xFFFFFFFF, mode := .active, capSeen := false }
  pos := { offset := 0, prevNow := 0, elapsed := 0 }
  ren := { idleTime := 0, pb := [] }
  enc := { pixIdx := 0, chIdx := 0, bitIdx := 0, dout := false, dutySel := false, encState := .idle }
  bnd := { cnt := 0, capFlag := false, capLatch := 0, ovfFlag := false, slot := { count := 0, within := 0 } }
  cfg := refConfig
  wire := []
  returned := .nothing
  time := 0
  env := []
  draws := 0

/-- What an operation answers. -/
abbrev Result := Host.Outcome State Fault Refusal

end Sys2Proof.Machine
end

