-- ==== Sys2Proof/Machine/Operands.lean ====
section
/-! DEFINITION. Operand assembly: the numbers the operations compute with, from 30_encoding.md R67 to R69 and the rules
they point to. All arithmetic is exact and on integers; the destination's width is applied where a rule writes
(00_scope.md R11). -/

namespace Sys2Proof.Machine

/-! ### SPD -/

/-- Capture period, `(ts − last_ts) mod 2^16` (30_encoding.md R67, 41_speed_estimator.md R86). -/
def period (ts lastTs : U16) : U16 := ts - lastTs

/-- Instantaneous speed of a period, `SPEED_NUM / (period × TICKS_PER_REV)`, truncating (41_speed_estimator.md R90).
A period of 0 reaches no division (60_exceptions.md R138): a free value (log 11). -/
def instSpeed (cfg : Config) (per : U16) : U32 :=
  if per = 0 then Config.zeroPeriodSpeed cfg.speedNum
  else BitVec.ofNat 32 (cfg.speedNum / (per.toNat * cfg.ticksPerRev))

/-- The filter law, `(speed − (speed >> 4)) + (inst >> 4)` (41_speed_estimator.md R91). -/
def smooth (speed inst : U32) : U32 :=
  BitVec.ofNat 32 ((speed.toNat - speed.toNat / 2 ^ ewmaShift) + inst.toNat / 2 ^ ewmaShift)

/-! ### POS -/

/-- Elapsed ticks, `(now − prev_now) mod 2^16` (30_encoding.md R68, 42_position_integrator.md R99). -/
def elapsedTicks (now prevNow : U16) : U16 := now - prevNow

/-- `min(2^32 − 1, since + elapsed)` (42_position_integrator.md R99). -/
def saturatingSince (since : U32) (elapsed : U16) : U32 :=
  BitVec.ofNat 32 (min (2 ^ 32 - 1) (since.toNat + elapsed.toNat))

/-- The position increment, one truncating division of the exact product (42_position_integrator.md R102). -/
def posIncrement (cfg : Config) (elapsed : U16) (speed : U32) : Nat :=
  elapsed.toNat * speed.toNat * cfg.kNum / (cfg.kDen * tickFreqHz)

/-- The new offset, `(offset + inc) mod 2^31` (42_position_integrator.md R103). -/
def wrapOffset (offset : U32) (inc : Nat) : U32 := BitVec.ofNat 32 ((offset.toNat + inc) % posModulus)

/-! ### REN -/

/-- The index clamp, `min(max(i, 0), 53)` (20_memory.md R47, 43_renderer.md R108). -/
def clampIndex (i : Int) : Nat := (min (max i 0) 53).toNat

/-- LUTW: the table byte inside 0..215, 0 outside (43_renderer.md R110, 20_memory.md R46). -/
def lutWindow (cfg : Config) (j : Int) : Byte :=
  if 0 ≤ j ∧ j ≤ 215 then cfg.lut.getD j.toNat 0 else 0

/-- The scan position of the Idle render (43_renderer.md R112). -/
def idleShift (cfg : Config) (idleTime : U32) : Nat :=
  idleTime.toNat * cfg.idleRateNum / cfg.idleRateDen % idleScanLen

/-- The brightness of position `p` in the Idle render: two table samples, one from each direction, summed and scaled
down (43_renderer.md R113 step 3, R115). -/
def idleValue (cfg : Config) (idleTime : U32) (p : Nat) : Byte :=
  let a : Int := (idleShift cfg idleTime : Int) - 27
  let s1 := lutWindow cfg (8 * ((p : Int) - a))
  let s2 := lutWindow cfg (8 * ((26 - (p : Int)) - a))
  BitVec.ofNat 8 (min 255 ((s1.toNat + s2.toNat) / 2 ^ cfg.idleAtten))

/-- The pixel of position `p` in the Idle render: blue and white, red and green 0 (43_renderer.md R113). -/
def idlePixel (cfg : Config) (idleTime : U32) (p : Nat) : Pixel :=
  let v := idleValue cfg idleTime p
  { g := 0, r := 0, b := v, w := v }

/-- The start index, `offset >> 5` (43_renderer.md R117). -/
def startIndex (offset : U32) : Nat := offset.toNat / 2 ^ 5

/-- The table index of position `p` in the Active render, `(start × RAINBOW_SPEEDUP + 8 × p) mod 432` (43_renderer.md R118). -/
def hueIndex (cfg : Config) (offset : U32) (p : Nat) : Nat :=
  (startIndex offset * cfg.rainbowSpeedup + lutPerLed * p) % hueCycle

/-- The pixel of position `p` in the Active render: four table samples, attenuated; white 0 (43_renderer.md R118). -/
def rainbowPixel (cfg : Config) (offset : U32) (p : Nat) : Pixel :=
  let x : Int := hueIndex cfg offset p
  let r := (lutWindow cfg x).toNat
  let g := (lutWindow cfg (x - 144)).toNat
  let b := (lutWindow cfg (x - 288)).toNat + (lutWindow cfg (x + 144)).toNat
  { g := BitVec.ofNat 8 (g / 2 ^ cfg.rainbowAtten),
    r := BitVec.ofNat 8 (r / 2 ^ cfg.rainbowAtten),
    b := BitVec.ofNat 8 (b / 2 ^ cfg.rainbowAtten),
    w := 0 }

/-! ### ENC -/

/-- The duty threshold of a bit in clock periods, DUTY0_CYCLES or DUTY1_CYCLES (40_serial_encoder.md R80). -/
def dutyCycles (cfg : Config) (bit : Bool) : Nat := if bit then cfg.duty1Cycles else cfg.duty0Cycles

/-- The high time of a bit (30_encoding.md R56). -/
def highTime (cfg : Config) (bit : Bool) : Nat := if bit then cfg.t1h else cfg.t0h

/-- The symbol of a bit on the wire: high for its high time, low for the remainder of the slot (30_encoding.md R56). -/
def symbol (cfg : Config) (bit : Bool) : WireEvent := .slot (highTime cfg bit) (cfg.tSlot - highTime cfg bit)

/-- The compare output: high exactly when the encoder is shifting and the slot count is below the selected threshold
(40_serial_encoder.md R80). -/
def compareOutput (cfg : Config) (st : EncState) (dutySel : Bool) (count : Nat) : Bool :=
  st == .shift && decide (count < dutyCycles cfg dutySel)

end Sys2Proof.Machine
end

