-- ==== Sys2Proof/Machine/Flags.lean ====
section
/-! DEFINITION. The computed conditions of 10_state.md R25 and the dispatch vector formed from them (30_encoding.md R63).
"No arithmetic operation sets a flag as a side effect" (R25); the stored flags `mode` and `cap_seen` are written by the
operations that name them. -/

namespace Sys2Proof.Machine

/-- `cap_valid`: the capture primitive answers a timestamp (10_state.md R25, 44_sequencer.md R128). -/
def capValid (s : State) : Bool := s.bnd.capFlag

/-- `accept`: a timestamp whose period is at least DEBOUNCE_TICKS (10_state.md R25). -/
def accept (s : State) : Bool :=
  capValid s && decide (s.cfg.debounceTicks ≤ (period s.bnd.capLatch s.spd.lastTs).toNat)

/-- `ovf`: the overflow primitive answers true (10_state.md R25, 44_sequencer.md R129). -/
def ovf (s : State) : Bool := s.bnd.ovfFlag

/-- `timeout`: `cap_seen = 0 and mode = Active and since > IDLE_TIMEOUT_TICKS` (41_speed_estimator.md R95). -/
def timeout (s : State) : Bool :=
  !s.spd.capSeen && s.spd.mode == .active && decide (idleTimeoutTicks < s.spd.since.toNat)

/-- `idle`: mode = Idle (30_encoding.md R63). -/
def idle (s : State) : Bool := s.spd.mode == .idle

/-- The dispatch vector at the start of a phase (30_encoding.md R63). A primitive is called in its own phase only
(44_sequencer.md R134), so the bits of another phase's primitive are 0; they are don't-cares (R63; log 18). -/
def dispatchVector (s : State) : BitVec 9 :=
  let inPhase (n : BitVec 4) (c : Bool) : BitVec 1 := BitVec.ofBool (s.phase == n && c)
  s.phase ++ inPhase 1 (capValid s) ++ inPhase 1 (accept s) ++ inPhase 2 (ovf s) ++ inPhase 2 (timeout s)
    ++ BitVec.ofBool (idle s)

end Sys2Proof.Machine
end

