-- ==== Sys2Proof/Machine/Ops.lean ====
section
/-! DEFINITION. The named operations over the Pixel Buffer, the boundary device, the line and the mode that the
operations' meanings are built from. -/

namespace Sys2Proof.Machine

/-! ### The Pixel Buffer (20_memory.md R43, R44) -/

/-- `MemRead(PB, i, 4)`, for a pixel index 0..53 (20_memory.md R44). -/
def readPixel (m : Memory) (i : Nat) : Pixel :=
  { g := m.read (4 * i), r := m.read (4 * i + 1), b := m.read (4 * i + 2), w := m.read (4 * i + 3) }

/-- `MemWrite(PB, i, 4, (g, r, b, w))`, for a pixel index 0..53 (20_memory.md R43). -/
def writePixel (m : Memory) (i : Nat) (p : Pixel) : Memory :=
  (((m.write (4 * i) p.g).write (4 * i + 1) p.r).write (4 * i + 2) p.b).write (4 * i + 3) p.w

/-- The buffer after the pixel of an index is written, the index clamped into 0..53 (43_renderer.md R108). -/
def setPixel (m : Memory) (i : Int) (p : Pixel) : Memory := writePixel m (clampIndex i) p

/-- The pixel of an index, clamped into 0..53 (43_renderer.md R109). -/
def getPixel (m : Memory) (i : Int) : Pixel := readPixel m (clampIndex i)

/-- The buffer with every pixel zero (43_renderer.md R107). -/
def clearBuffer (m : Memory) : Memory :=
  (List.range nPix).foldl (fun m i => writePixel m i { g := 0, r := 0, b := 0, w := 0 }) m

/-- Both halves of the buffer from one half's pixels: position `p` is written to pixel `p` and to pixel `27 + p`
(43_renderer.md R113, R118, R119). -/
def drawHalves (pix : Nat → Pixel) (m : Memory) : Memory :=
  (List.range nHalf).foldl (fun m (p : Nat) => setPixel (setPixel m p (pix p)) (nHalf + p : Nat) (pix p)) m

/-! ### The boundary device (60_exceptions.md R150) -/

/-- Picoseconds since the slot timer's last tick. -/
def SlotTimer.sinceTick (cfg : Config) (t : SlotTimer) : Nat := t.count * cfg.tClk + t.within

/-- The slot timer some picoseconds later: the count goes up by the clock periods that end in them and wraps from
SLOT_CYCLES − 1 to 0 (40_serial_encoder.md R80). -/
def runSlot (cfg : Config) (ps : Nat) (t : SlotTimer) : SlotTimer :=
  { count := (t.count + (t.within + ps) / cfg.tClk) % cfg.slotCycles, within := (t.within + ps) % cfg.tClk }

/-- What one event does to the boundary device (10_state.md R31 to R33, 30_encoding.md R72). A later edge overwrites the
latch (R32; log 10). No event clears a flag. DESIGN CHOICE (log 28): a drawn counter value sets no overflow flag, and a
drawn timestamp or overflow needs no counter value to match it. -/
def applyEvent (cfg : Config) (b : Bnd) : BoundaryEvent → Bnd
  | .ticks n =>
    { b with cnt := b.cnt + BitVec.ofNat 16 n, ovfFlag := b.ovfFlag || decide (cntPeriod ≤ b.cnt.toNat + n) }
  | .edge => { b with capLatch := b.cnt, capFlag := true }
  | .slotTime ps => { b with slot := runSlot cfg ps b.slot }
  | .drawCapture ts => { b with capLatch := ts, capFlag := true }
  | .drawOverflow => { b with ovfFlag := true }
  | .drawCounter now => { b with cnt := now }

/-- The inputs of one iteration, `iter cap=<c> ovf=<o> now=<now>` of the spec's scripts: the draws before their phases,
and nothing before the others (30_encoding.md R72, "`-` means no event"). -/
def iteration (c : Option U16) (o : Bool) (now : U16) : List (List BoundaryEvent) :=
  [(c.map BoundaryEvent.drawCapture).toList, if o then [.drawOverflow] else [], [.drawCounter now], [], [], [], [], []]

/-- The boundary device runs on until the start of the next phase: the next listed input, or a free value when
none is listed (log 3). -/
def advance (s : State) : State :=
  match s.env with
  | seg :: rest => { s with bnd := seg.foldl (applyEvent s.cfg) s.bnd, env := rest }
  | [] =>
    { s with bnd := (Config.freeSegment s.draws).foldl (applyEvent s.cfg) s.bnd, draws := s.draws + 1 }

/-- The answer of `readCaptureEvent()`: `Some(cap_latch)` if `cap_flag = 1`, else `None` (44_sequencer.md R128). -/
def captureAnswer (s : State) : Option U16 := if s.bnd.capFlag then some s.bnd.capLatch else none

/-- The side effect of `readCaptureEvent()`: `cap_flag <- 0` (44_sequencer.md R128). -/
def acknowledgeCapture (s : State) : State := { s with bnd := { s.bnd with capFlag := false } }

/-- The side effect of `readOverflowEvent()`: `ovf_flag <- 0` (44_sequencer.md R129). -/
def acknowledgeOverflow (s : State) : State := { s with bnd := { s.bnd with ovfFlag := false } }

/-- Some picoseconds pass and the slot timer runs on (log 8). -/
def passTime (ps : Nat) (s : State) : State :=
  { s with time := s.time + ps, bnd := { s.bnd with slot := runSlot s.cfg ps s.bnd.slot } }

/-- `delay(microseconds)`: "returns after that time; nothing else" (44_sequencer.md R133). -/
def delayFor (us : Nat) (s : State) : State := passTime (us * 1000000) s

/-- Time to the next slot tick: "more than 0 and at most T_SLOT" (44_sequencer.md R132). -/
def toBoundary (s : State) : Nat := s.cfg.tSlot - s.bnd.slot.sinceTick s.cfg % s.cfg.tSlot

/-- Time to the end of the running slot: none at a tick. -/
def restOfSlot (s : State) : Nat := toBoundary s % s.cfg.tSlot

/-- `waitSlotBoundary()`: "returns at the next slot tick" (44_sequencer.md R132), when the slot count wraps to 0. -/
def waitBoundary (s : State) : State := passTime (toBoundary s) s

/-! ### The line -/

/-- `setOutputLevel(bool)`: `dout <- level` (44_sequencer.md R131). -/
def driveLine (level : Bool) (s : State) : State := { s with enc := { s.enc with dout := level } }

/-- The line follows the compare output of the slot timer, which is enabled for a symbol (40_serial_encoder.md R80,
44_sequencer.md R131). -/
def followCompare (s : State) : State :=
  driveLine (compareOutput s.cfg .shift s.enc.dutySel s.bnd.slot.count) s

/-- `emit` and `emit_low`: one entry more on the wire trace (00_scope.md R12). -/
def emit (e : WireEvent) (s : State) : State := { s with wire := e :: s.wire }

/-! ### Mode entry and exit (60_exceptions.md R143, R144), the place of taking an exception and returning from one -/

/-- Entering Idle: "mode <- Idle, speed <- 0, idle_time <- 0, cap_seen <- 0"; nothing is saved and control goes
nowhere new (60_exceptions.md R143, 41_speed_estimator.md R94). -/
def enterIdle (s : State) : State :=
  { s with spd := { s.spd with mode := .idle, speed := 0, capSeen := false }, ren := { s.ren with idleTime := 0 } }

/-- Becoming Active on an accepted capture; leaving Idle restarts the idle accumulator, and a capture in Active does
not touch it (60_exceptions.md R144, R145, 43_renderer.md R120). -/
def leaveIdle (s : State) : State :=
  { s with
    spd := { s.spd with mode := .active }
    ren := { s.ren with idleTime := if s.spd.mode = .idle then 0 else s.ren.idleTime } }

/-- `phase <- n`, the one control transfer (44_sequencer.md R124). -/
def goPhase (n : BitVec 4) (s : State) : State := { s with phase := n }

end Sys2Proof.Machine
end

