-- ==== Sys2Proof/Machine/Render.lean ====
section
/-! DEFINITION. REN, the animation pixel LUT renderer (43_renderer.md): CLEAR, the two renders, and the micro-operations
SETPIX, GETPIX and LUTW. A micro-operation run by itself leaves its result in `returned` (log 14). -/

namespace Sys2Proof.Machine

/-- The Pixel Buffer replaced. -/
def withBuffer (m : Memory) (s : State) : State := { s with ren := { s.ren with pb := m } }

/-- The result port of the micro-operations and primitives. -/
def answer (r : Returned) (s : State) : State := { s with returned := r }

/-- CLEAR (43_renderer.md R107). -/
def clear (s : State) : State := goPhase 6 (withBuffer (clearBuffer s.ren.pb) s)

/-- RENDER.ACTIVE (43_renderer.md R118). -/
def renderActive (s : State) : State :=
  goPhase 7 (withBuffer (drawHalves (rainbowPixel s.cfg s.pos.offset) s.ren.pb) s)

/-- The idle clock: `idle_time <- (idle_time + elapsed) mod 2^32` (43_renderer.md R114). -/
def runIdleClock (s : State) : State :=
  { s with ren := { s.ren with idleTime := s.ren.idleTime + s.pos.elapsed.setWidth 32 } }

/-- RENDER.IDLE: drawn at `idle_time` as it stands, which is then increased (43_renderer.md R113, R114). -/
def renderIdle (s : State) : State :=
  goPhase 7 (runIdleClock (withBuffer (drawHalves (idlePixel s.cfg s.ren.idleTime) s.ren.pb) s))

/-- Meaning of CLEAR. -/
def execClear (s : State) : Result := .next (clear s)

/-- Meaning of RENDER.ACTIVE. -/
def execRenderActive (s : State) : Result := .next (renderActive s)

/-- Meaning of RENDER.IDLE. -/
def execRenderIdle (s : State) : Result := .next (renderIdle s)

/-- Meaning of SETPIX (43_renderer.md R108). -/
def execSetPix (i : Int) (g r b w : Byte) (s : State) : Result :=
  .next (withBuffer (setPixel s.ren.pb i { g := g, r := r, b := b, w := w }) s)

/-- Meaning of GETPIX (43_renderer.md R109). -/
def execGetPix (i : Int) (s : State) : Result := .next (answer (.pixel (getPixel s.ren.pb i)) s)

/-- Meaning of LUTW (43_renderer.md R110). -/
def execLutW (j : Int) (s : State) : Result := .next (answer (.sample (lutWindow s.cfg j)) s)

end Sys2Proof.Machine
end

