-- ==== Sys2Proof/Machine/Boundary.lean ====
section
/-! DEFINITION. The six boundary primitives run by themselves (44_sequencer.md R128 to R133): each answers its result in
`returned` (log 14) and has its side effect on the boundary device. -/

namespace Sys2Proof.Machine

/-- Meaning of readCaptureEvent: the answer, and the flag cleared "in the same act" (44_sequencer.md R128). -/
def execReadCaptureEvent (s : State) : Result := .next (answer (.capture (captureAnswer s)) (acknowledgeCapture s))

/-- Meaning of readOverflowEvent: the flag, and the flag cleared "in the same act" (44_sequencer.md R129). -/
def execReadOverflowEvent (s : State) : Result := .next (answer (.overflow s.bnd.ovfFlag) (acknowledgeOverflow s))

/-- Meaning of currentCounterValue: "no side effect" (44_sequencer.md R130). -/
def execCurrentCounterValue (s : State) : Result := .next (answer (.counter s.bnd.cnt) s)

/-- Meaning of setOutputLevel (44_sequencer.md R131). DESIGN CHOICE (log 24): run by itself outside ENC_SHIFT with the level
high it leaves the line high, as R131's effect says, although the spec uses it inside TRANSMIT only and 10_state.md R28 and
R40 have the line low there. Unsafe only for a claim about it run by itself: no step runs it so. -/
def execSetOutputLevel (l : Bool) (s : State) : Result := .next (driveLine l s)

/-- Meaning of waitSlotBoundary (44_sequencer.md R132). -/
def execWaitSlotBoundary (s : State) : Result := .next (waitBoundary s)

/-- Meaning of delay (44_sequencer.md R133). -/
def execDelay (us : Nat) (s : State) : Result := .next (delayFor us s)

end Sys2Proof.Machine
end

