-- ==== Sys2Proof/Machine/Encoder.lean ====
section
/-! DEFINITION. ENC, the RGBW serial encoder (40_serial_encoder.md): the symbols, BYTE, PIXEL, LATCH and TRANSMIT. The
encoder is never late for a slot tick (R82; log 9). -/

namespace Sys2Proof.Machine

/-- At a slot boundary the encoder loads the bit to send, and enters ENC_SHIFT if it was waiting for the first
boundary (40_serial_encoder.md R80, R81). -/
def loadDuty (bit : Bool) (s : State) : State :=
  { s with
    enc := { s.enc with
      dutySel := bit
      encState := if s.enc.encState = .sync then .shift else s.enc.encState } }

/-- One symbol: wait for the boundary and load the bit; the line follows the compare output, high from the tick and low
from the threshold on; the remainder of the slot runs on until the next boundary (40_serial_encoder.md R74, R75, R80;
log 8). -/
def sendSym (bit : Bool) (s : State) : State :=
  let s := followCompare (loadDuty bit (waitBoundary s))
  emit (symbol s.cfg bit) (followCompare (passTime (highTime s.cfg bit) s))

/-- `bit_idx <- k`. -/
def atBit (k : Nat) (s : State) : State := { s with enc := { s.enc with bitIdx := BitVec.ofNat 3 k } }

/-- `ch_idx <- k`. -/
def atChannel (k : Nat) (s : State) : State := { s with enc := { s.enc with chIdx := BitVec.ofNat 2 k } }

/-- `pix_idx <- k`. -/
def atPixel (k : Nat) (s : State) : State := { s with enc := { s.enc with pixIdx := BitVec.ofNat 6 k } }

/-- The bit indices of a byte in the order they are sent, "most-significant first" (40_serial_encoder.md R76). -/
def bitOrder : List Nat := [7, 6, 5, 4, 3, 2, 1, 0]

/-- One byte, `for bit_idx = 7 down to 0` (40_serial_encoder.md R76). -/
def sendByte (v : Byte) (s : State) : State :=
  bitOrder.foldl (fun s k => sendSym (v.getLsbD k) (atBit k s)) s

/-- One pixel, "green, red, blue, white" (40_serial_encoder.md R77). -/
def sendPixel (p : Pixel) (s : State) : State :=
  sendByte p.w (atChannel 3 (sendByte p.b (atChannel 2 (sendByte p.r (atChannel 1 (sendByte p.g (atChannel 0 s)))))))

/-- PIXEL of a pixel index: the word is read from the buffer and sent (40_serial_encoder.md R77). -/
def sendPixelAt (i : Nat) (s : State) : State := sendPixel (readPixel s.ren.pb i) (atPixel i s)

/-- The encoder's state register written. -/
def toEncState (e : EncState) (s : State) : State := { s with enc := { s.enc with encState := e } }

/-- The reset/latch interval, "measured from the end of slot 1727": the rest of the running slot passes, then T_RESET
(40_serial_encoder.md R79; log 19). It calls no `waitSlotBoundary()` (44_sequencer.md R134). -/
def holdLatch (s : State) : State :=
  let s := driveLine false (toEncState .latch s)
  let s := passTime (restOfSlot s) s
  toEncState .idle (emit (.low s.cfg.tReset) (passTime s.cfg.tReset s))

/-- Start of a frame: ENC_SYNC, with the first bit loaded (40_serial_encoder.md R81). -/
def beginSync (s : State) : State :=
  let s := toEncState .sync s
  { s with enc := { s.enc with dutySel := (readPixel s.ren.pb 0).g.getLsbD 7 } }

/-- Step 4 of TRANSMIT: the position counters and `duty_sel` back to 0 (40_serial_encoder.md R78). -/
def endTransmit (s : State) : State :=
  { s with enc := { s.enc with pixIdx := 0, chIdx := 0, bitIdx := 0, dutySel := false } }

/-- TRANSMIT (40_serial_encoder.md R78). -/
def transmit (s : State) : State :=
  goPhase 8 (endTransmit (holdLatch ((List.range nPix).foldl (fun s i => sendPixelAt i s) (beginSync s))))

/-- Meaning of SYM0 (40_serial_encoder.md R74). -/
def execSym0 (s : State) : Result := .next (sendSym false s)

/-- Meaning of SYM1 (40_serial_encoder.md R75). -/
def execSym1 (s : State) : Result := .next (sendSym true s)

/-- Meaning of BYTE (40_serial_encoder.md R76). -/
def execByte (v : Byte) (s : State) : Result := .next (sendByte v s)

/-- Meaning of PIXEL of a word: its 32 bits are sent (30_encoding.md R58; log 13). -/
def execPixel (g r b w : Byte) (s : State) : Result := .next (sendPixel { g := g, r := r, b := b, w := w } s)

/-- Meaning of PIXEL of an index: the pixel stored there is read and sent, as TRANSMIT does for each
(40_serial_encoder.md R77). DEDUCED (log 13): an index of 54..63 stands for pixel 53. -/
def execPixelAt (i : BitVec 6) (s : State) : Result := .next (sendPixelAt (clampIndex i.toNat) s)

/-- Meaning of LATCH (40_serial_encoder.md R79). -/
def execLatch (s : State) : Result := .next (holdLatch s)

/-- Meaning of TRANSMIT (40_serial_encoder.md R78). -/
def execTransmit (s : State) : Result := .next (transmit s)

end Sys2Proof.Machine
end

