-- ==== Sys2Proof/Machine/Position.lean ====
section
/-! DEFINITION. POS, the fixed-point speed-to-position integrator (42_position_integrator.md): the operations of
phases 3 and 4. -/

namespace Sys2Proof.Machine

/-- ELAPSED, `now` being the answer of `currentCounterValue()` (42_position_integrator.md R99). -/
def elapsed (s : State) : State :=
  let e := elapsedTicks s.bnd.cnt s.pos.prevNow
  goPhase 4 { s with
    pos := { s.pos with elapsed := e, prevNow := s.bnd.cnt }
    spd := { s.spd with since := saturatingSince s.spd.since e } }

/-- ADV.RUN (42_position_integrator.md R100). -/
def advRun (s : State) : State :=
  goPhase 5 { s with
    pos := { s.pos with offset := wrapOffset s.pos.offset (posIncrement s.cfg s.pos.elapsed s.spd.speed) } }

/-- ADV.HOLD (42_position_integrator.md R101). -/
def advHold (s : State) : State := goPhase 5 s

/-- Meaning of ELAPSED. -/
def execElapsed (s : State) : Result := .next (elapsed s)

/-- Meaning of ADV.RUN. -/
def execAdvRun (s : State) : Result := .next (advRun s)

/-- Meaning of ADV.HOLD. -/
def execAdvHold (s : State) : Result := .next (advHold s)

end Sys2Proof.Machine
end

