-- ==== Sys2Proof/Machine/Speed.lean ====
section
/-! DEFINITION. SPD, the edge-to-speed filter and idle/active classifier (41_speed_estimator.md): the operations of
phases 1 and 2. Each capture operation calls `readCaptureEvent()` and each overflow operation `readOverflowEvent()`,
which clear their flag (44_sequencer.md R134). An operation run by itself, outside the dispatch that selects it, takes
its timestamp from the latch (log 11). -/

namespace Sys2Proof.Machine

/-- CAP.NONE (41_speed_estimator.md R87). -/
def capNone (s : State) : State := goPhase 2 (acknowledgeCapture s)

/-- CAP.REJECT (41_speed_estimator.md R88). -/
def capReject (s : State) : State := goPhase 2 (acknowledgeCapture s)

/-- Steps 1 to 6 of CAP.ACCEPT: the filter and the capture registers (41_speed_estimator.md R89). -/
def acceptCapture (ts : U16) (s : State) : State :=
  { s with
    spd := { s.spd with
      speed := smooth s.spd.speed (instSpeed s.cfg (period ts s.spd.lastTs))
      lastTs := ts
      since := 0
      capSeen := true } }

/-- CAP.ACCEPT (41_speed_estimator.md R89). -/
def capAccept (s : State) : State :=
  goPhase 2 (leaveIdle (acceptCapture s.bnd.capLatch (acknowledgeCapture s)))

/-- OVF.NONE (41_speed_estimator.md R92). -/
def ovfNone (s : State) : State := goPhase 3 (acknowledgeOverflow s)

/-- OVF.TICK (41_speed_estimator.md R93). -/
def ovfTick (s : State) : State :=
  let s := acknowledgeOverflow s
  goPhase 3 { s with spd := { s.spd with capSeen := false } }

/-- OVF.TIMEOUT (41_speed_estimator.md R94). -/
def ovfTimeout (s : State) : State := goPhase 3 (enterIdle (acknowledgeOverflow s))

/-- Meaning of CAP.NONE. -/
def execCapNone (s : State) : Result := .next (capNone s)

/-- Meaning of CAP.REJECT. -/
def execCapReject (s : State) : Result := .next (capReject s)

/-- Meaning of CAP.ACCEPT. -/
def execCapAccept (s : State) : Result := .next (capAccept s)

/-- Meaning of OVF.NONE. -/
def execOvfNone (s : State) : Result := .next (ovfNone s)

/-- Meaning of OVF.TICK. -/
def execOvfTick (s : State) : Result := .next (ovfTick s)

/-- Meaning of OVF.TIMEOUT. -/
def execOvfTimeout (s : State) : Result := .next (ovfTimeout s)

end Sys2Proof.Machine
end

