-- ==== Sys2Proof/Machine/Sequencer.lean ====
section
/-! DEFINITION. SEQ, the frame sequencer (44_sequencer.md): SETTLE, and FRAME, one iteration of the Control Loop. -/

namespace Sys2Proof.Machine

/-- SETTLE: `delay(T_SETTLE); phase <- 1` (44_sequencer.md R125). -/
def settle (s : State) : State := goPhase 1 (delayFor s.cfg.tSettle s)

/-- Line 1 of FRAME: the outcome of the capture poll (44_sequencer.md R122). -/
def pollCapture (s : State) : State :=
  if capValid s then (if accept s then capAccept s else capReject s) else capNone s

/-- Line 2 of FRAME: the outcome of the overflow poll (44_sequencer.md R122). -/
def pollOverflow (s : State) : State :=
  if ovf s then (if timeout s then ovfTimeout s else ovfTick s) else ovfNone s

/-- Line 4 of FRAME: advance if Active (44_sequencer.md R122). -/
def integrate (s : State) : State := if idle s then advHold s else advRun s

/-- Line 6 of FRAME: the render mux (44_sequencer.md R122, 43_renderer.md R106). -/
def render (s : State) : State := if idle s then renderIdle s else renderActive s

/-- FRAME: the eight lines in order, the boundary device running on before each (44_sequencer.md R122; log 20). -/
def frame (s : State) : State :=
  [pollCapture, pollOverflow, elapsed, integrate, clear, render, transmit, settle].foldl
    (fun s line => line (advance s)) s

/-- Meaning of SETTLE. -/
def execSettle (s : State) : Result := .next (settle s)

/-- Meaning of FRAME. -/
def execFrame (s : State) : Result := .next (frame s)

end Sys2Proof.Machine
end

