-- ==== Sys2Proof/Syntax.lean ====
section
/-! DEFINITION. The operations of the core, one constructor per row of spec/opcode_table.json, and the channels their
encodings travel on (30_encoding.md R55). -/

namespace Sys2Proof

/-- The 29 operations, PIXEL with a constructor for each form of its operand. Operands are what the operation is given; results of micro-operations and primitives are no
operands (30_encoding.md R65, R66). Indices are integers: "the rules themselves are stated over unbounded integers"
(R65). -/
inductive Instr where
  /-- SYM0, send a 0-bit (40_serial_encoder.md R74). -/
  | sym0
  /-- SYM1, send a 1-bit (R75). -/
  | sym1
  /-- BYTE, send one byte (R76). -/
  | byte (v : Byte)
  /-- PIXEL of the word `g ‖ r ‖ b ‖ w` of its encoding (30_encoding.md R58; log 13). -/
  | pixel (g r b w : Byte)
  /-- PIXEL of the pixel stored at index `pix_idx`, 0..53, an address of 6 bits (R77, 20_memory.md R41; log 13). -/
  | pixelAt (i : BitVec 6)
  /-- LATCH, the reset/latch interval (R79). -/
  | latch
  /-- CAP.NONE, no capture pending (41_speed_estimator.md R87). -/
  | capNone
  /-- CAP.REJECT, a capture below the debounce threshold (R88). -/
  | capReject
  /-- CAP.ACCEPT, a capture at or above the debounce threshold (R89). -/
  | capAccept
  /-- OVF.NONE, no overflow pending (R92). -/
  | ovfNone
  /-- OVF.TICK, an overflow that does not time out (R93). -/
  | ovfTick
  /-- OVF.TIMEOUT, an overflow that times out (R94). -/
  | ovfTimeout
  /-- ELAPSED, measure the ticks since the previous iteration (42_position_integrator.md R99). -/
  | elapsed
  /-- ADV.RUN, advance the position (R100). -/
  | advRun
  /-- ADV.HOLD, position frozen (R101). -/
  | advHold
  /-- CLEAR, zero the Pixel Buffer (43_renderer.md R107). -/
  | clear
  /-- RENDER.ACTIVE, the scrolling rainbow (R116 to R118). -/
  | renderActive
  /-- RENDER.IDLE, the breathing pulse (R111 to R115). -/
  | renderIdle
  /-- TRANSMIT, send one frame (40_serial_encoder.md R78). -/
  | transmit
  /-- SETTLE, the inter-frame wait (44_sequencer.md R125). -/
  | settle
  /-- FRAME, one iteration of the Control Loop (R122). -/
  | frame
  /-- SETPIX, write one pixel (43_renderer.md R108). -/
  | setPix (i : Int) (g r b w : Byte)
  /-- GETPIX, read one pixel (R109). -/
  | getPix (i : Int)
  /-- LUTW, windowed table read (R110). -/
  | lutW (j : Int)
  /-- readCaptureEvent (44_sequencer.md R128). -/
  | readCaptureEvent
  /-- readOverflowEvent (R129). -/
  | readOverflowEvent
  /-- currentCounterValue (R130). -/
  | currentCounterValue
  /-- setOutputLevel (R131). -/
  | setOutputLevel (l : Bool)
  /-- waitSlotBoundary (R132). -/
  | waitSlotBoundary
  /-- delay, in microseconds (R133). -/
  | delay (us : Nat)
  deriving DecidableEq, Repr

/-- What an encoded operation travels on. Only format DV selects an operation by its bits alone; a MICRO bundle goes to
the micro-operation that takes it and a PRIM bundle to the port of its primitive, so the bits of different channels
overlap (30_encoding.md R55, R65, R66; log 12). -/
inductive Channel where
  /-- format SYM: one bit slot (R56) -/
  | sym
  /-- format BYTE: 8 slots (R57) -/
  | byte
  /-- format PIXEL: 32 slots (R58) -/
  | pixel
  /-- the latch interval of format FRAME, no bits (R60) -/
  | latch
  /-- format DV: the dispatch vector (R63) -/
  | dv
  /-- the composite FRAME, no selector of its own (R64) -/
  | frame
  /-- the MICRO bundle of SETPIX (R65) -/
  | setPix
  /-- the MICRO bundle of GETPIX (R65) -/
  | getPix
  /-- the MICRO bundle of LUTW (R65) -/
  | lutW
  /-- the PRIM bundle of readCaptureEvent (R66) -/
  | capture
  /-- the PRIM bundle of readOverflowEvent (R66) -/
  | overflow
  /-- the PRIM bundle of currentCounterValue (R66) -/
  | counter
  /-- the PRIM bundle of setOutputLevel (R66) -/
  | level
  /-- the PRIM bundle of waitSlotBoundary (R66) -/
  | slotTick
  /-- the PRIM bundle of delay (R66) -/
  | delay
  deriving DecidableEq, Repr

/-- Bits of a channel's encoding (30_encoding.md R55, R65, R66). -/
def Channel.width : Channel → Nat
  | .sym => 1
  | .byte => 8
  | .pixel => 32
  | .latch => 0
  | .dv => 9
  | .frame => 0
  | .setPix => 40
  | .getPix => 8
  | .lutW => 11
  | .capture => 17
  | .overflow => 1
  | .counter => 16
  | .level => 1
  | .slotTick => 1
  | .delay => 16

end Sys2Proof
end

