-- ==== Sys2Proof/Machine/Dispatch.lean ====
section
/-! DEFINITION. exec: one arm per operation, each a direct call of its meaning. -/

namespace Sys2Proof.Machine

def exec (i : Instr) (s : State) : Host.Outcome State Fault Refusal :=
  match i with
  -- wire operations, 40_serial_encoder.md
  | .sym0 => Sys2Proof.Machine.execSym0 s
  | .sym1 => Sys2Proof.Machine.execSym1 s
  | .byte v => Sys2Proof.Machine.execByte v s
  | .pixel g r b w => Sys2Proof.Machine.execPixel g r b w s
  | .pixelAt k => Sys2Proof.Machine.execPixelAt k s
  | .latch => Sys2Proof.Machine.execLatch s
  -- phases 1 and 2, 41_speed_estimator.md
  | .capNone => Sys2Proof.Machine.execCapNone s
  | .capReject => Sys2Proof.Machine.execCapReject s
  | .capAccept => Sys2Proof.Machine.execCapAccept s
  | .ovfNone => Sys2Proof.Machine.execOvfNone s
  | .ovfTick => Sys2Proof.Machine.execOvfTick s
  | .ovfTimeout => Sys2Proof.Machine.execOvfTimeout s
  -- phases 3 and 4, 42_position_integrator.md
  | .elapsed => Sys2Proof.Machine.execElapsed s
  | .advRun => Sys2Proof.Machine.execAdvRun s
  | .advHold => Sys2Proof.Machine.execAdvHold s
  -- phases 5 and 6, 43_renderer.md
  | .clear => Sys2Proof.Machine.execClear s
  | .renderActive => Sys2Proof.Machine.execRenderActive s
  | .renderIdle => Sys2Proof.Machine.execRenderIdle s
  -- phases 7 and 8 and the whole iteration, 40_serial_encoder.md, 44_sequencer.md
  | .transmit => Sys2Proof.Machine.execTransmit s
  | .settle => Sys2Proof.Machine.execSettle s
  | .frame => Sys2Proof.Machine.execFrame s
  -- micro-operations, 43_renderer.md
  | .setPix k g r b w => Sys2Proof.Machine.execSetPix k g r b w s
  | .getPix k => Sys2Proof.Machine.execGetPix k s
  | .lutW j => Sys2Proof.Machine.execLutW j s
  -- boundary primitives, 44_sequencer.md
  | .readCaptureEvent => Sys2Proof.Machine.execReadCaptureEvent s
  | .readOverflowEvent => Sys2Proof.Machine.execReadOverflowEvent s
  | .currentCounterValue => Sys2Proof.Machine.execCurrentCounterValue s
  | .setOutputLevel l => Sys2Proof.Machine.execSetOutputLevel l s
  | .waitSlotBoundary => Sys2Proof.Machine.execWaitSlotBoundary s
  | .delay us => Sys2Proof.Machine.execDelay us s

end Sys2Proof.Machine
end

