-- ==== Sys2Proof/WellFormed.lean ====
section
/-! DEFINITION. Which operations have an encoding: the operand widths of 30_encoding.md R65 and R66. The meanings hold
for every operand, encodable or not ("the rules themselves are stated over unbounded integers", R65). -/

namespace Sys2Proof

/-- A pixel index is "a signed 8-bit integer" (30_encoding.md R65). -/
def fitsPixelIndex (i : Int) : Bool := decide (-128 ≤ i) && decide (i ≤ 127)

/-- A table index is "a signed 11-bit integer" (30_encoding.md R65). -/
def fitsTableIndex (j : Int) : Bool := decide (-1024 ≤ j) && decide (j ≤ 1023)

/-- A delay is a "16-bit microsecond count" (30_encoding.md R66). -/
def fitsDelay (us : Nat) : Bool := decide (us < 65536)

/-- The operands of the operation fit its bundle. PIXEL's encoding is the word it sends; its index operand has none
(30_encoding.md R58; log 13). -/
def Instr.wellFormed : Instr → Bool
  | .sym0 => true
  | .sym1 => true
  | .byte _ => true
  | .pixel _ _ _ _ => true
  | .pixelAt _ => false
  | .latch => true
  | .capNone => true
  | .capReject => true
  | .capAccept => true
  | .ovfNone => true
  | .ovfTick => true
  | .ovfTimeout => true
  | .elapsed => true
  | .advRun => true
  | .advHold => true
  | .clear => true
  | .renderActive => true
  | .renderIdle => true
  | .transmit => true
  | .settle => true
  | .frame => true
  | .setPix i _ _ _ _ => fitsPixelIndex i
  | .getPix i => fitsPixelIndex i
  | .lutW j => fitsTableIndex j
  | .readCaptureEvent => true
  | .readOverflowEvent => true
  | .currentCounterValue => true
  | .setOutputLevel _ => true
  | .waitSlotBoundary => true
  | .delay us => fitsDelay us

end Sys2Proof
end

