-- ==== Sys2Proof/Decode.lean ====
section
/-! DEFINITION. The decoder (total on any bytes of any channel, rejecting by name) and after it the encoder, both written
from the tables of 30_encoding.md R56 to R66, and the host's view of the decoder. Bits are numbered as
spec/opcode_table.json numbers them: bit 0 is the least significant bit of the first byte. -/

namespace Sys2Proof

/-- Why bytes are no operation of their channel. -/
inductive DecodeError where
  /-- The number of bytes is not the channel's. -/
  | wrongLength
  /-- A bit above the channel's width is set. -/
  | paddingNotZero
  /-- "Phase values 0 and 9..15 select no operation" (30_encoding.md R70). -/
  | noSuchPhase
  /-- waitSlotBoundary "returns when the slot tick is `1`" (30_encoding.md R66): the bundle 0 is not its bundle. -/
  | noSlotTick
  deriving DecidableEq, Repr

/-- Whole bytes of a channel's encoding. -/
def Channel.bytes (c : Channel) : Nat := (c.width + 7) / 8

/-- The number that bytes spell, the first byte least significant. -/
def numberOfBytes : List Byte → Nat
  | [] => 0
  | b :: bs => b.toNat + 256 * numberOfBytes bs

/-- The first `n` bytes of a number, the least significant first. -/
def bytesOfNumber : Nat → Nat → List Byte
  | 0, _ => []
  | n + 1, w => BitVec.ofNat 8 w :: bytesOfNumber n (w / 256)

/-- One row of the operation map: an operation is selected when `(DV and mask) = match` (30_encoding.md R64). -/
structure DvRow where
  value : BitVec 9
  mask : BitVec 9
  op : Instr
  deriving DecidableEq, Repr

/-- The operation map of 30_encoding.md R64. -/
def dvRows : List DvRow :=
  [ ⟨0x020, 0x1F0, .capNone⟩,
    ⟨0x030, 0x1F8, .capReject⟩,
    ⟨0x038, 0x1F8, .capAccept⟩,
    ⟨0x040, 0x1E4, .ovfNone⟩,
    ⟨0x044, 0x1E6, .ovfTick⟩,
    ⟨0x046, 0x1E6, .ovfTimeout⟩,
    ⟨0x060, 0x1E0, .elapsed⟩,
    ⟨0x080, 0x1E1, .advRun⟩,
    ⟨0x081, 0x1E1, .advHold⟩,
    ⟨0x0A0, 0x1E0, .clear⟩,
    ⟨0x0C0, 0x1E1, .renderActive⟩,
    ⟨0x0C1, 0x1E1, .renderIdle⟩,
    ⟨0x0E0, 0x1E0, .transmit⟩,
    ⟨0x100, 0x1E0, .settle⟩ ]

/-- A dispatch vector selects a row (30_encoding.md R64). -/
def DvRow.selects (r : DvRow) (v : BitVec 9) : Bool := v &&& r.mask == r.value

/-- The operation a dispatch vector selects. -/
def decodeDv (v : BitVec 9) : Except DecodeError Instr :=
  match dvRows.find? (·.selects v) with
  | some r => .ok r.op
  | none => .error .noSuchPhase

/-- The operation that the bits `w` of a channel stand for; result bits of a PRIM bundle select nothing (R66). -/
def decodeBits : Channel → Nat → Except DecodeError Instr
  | .sym, w => .ok (if w = 0 then .sym0 else .sym1)
  | .byte, w => .ok (.byte (BitVec.ofNat 8 w))
  | .pixel, w =>
    .ok (.pixel (BitVec.ofNat 8 (w / 2 ^ 24)) (BitVec.ofNat 8 (w / 2 ^ 16)) (BitVec.ofNat 8 (w / 2 ^ 8))
      (BitVec.ofNat 8 w))
  | .latch, _ => .ok .latch
  | .dv, w => decodeDv (BitVec.ofNat 9 w)
  | .frame, _ => .ok .frame
  | .setPix, w =>
    .ok (.setPix (BitVec.ofNat 8 (w / 2 ^ 32)).toInt (BitVec.ofNat 8 (w / 2 ^ 24)) (BitVec.ofNat 8 (w / 2 ^ 16))
      (BitVec.ofNat 8 (w / 2 ^ 8)) (BitVec.ofNat 8 w))
  | .getPix, w => .ok (.getPix (BitVec.ofNat 8 w).toInt)
  | .lutW, w => .ok (.lutW (BitVec.ofNat 11 w).toInt)
  | .capture, _ => .ok .readCaptureEvent
  | .overflow, _ => .ok .readOverflowEvent
  | .counter, _ => .ok .currentCounterValue
  | .level, w => .ok (.setOutputLevel (w != 0))
  | .slotTick, w => if w = 1 then .ok .waitSlotBoundary else .error .noSlotTick
  | .delay, w => .ok (.delay w)

/-- The decoder. -/
def decode (c : Channel) (bs : List Byte) : Except DecodeError Instr :=
  if bs.length ≠ c.bytes then .error .wrongLength
  else if 2 ^ c.width ≤ numberOfBytes bs then .error .paddingNotZero
  else decodeBits c (numberOfBytes bs)

/-! ### The encoder -/

/-- The channel and the bits of an operation: the match value of a DV row with its don't-care bits 0, the operands
of a bundle, and 0 where a bundle carries a result (30_encoding.md R56 to R66). PIXEL of an index has no encoding
(`Instr.wellFormed`); its bits are 0. -/
def encodeBits : Instr → Channel × Nat
  | .sym0 => (.sym, 0)
  | .sym1 => (.sym, 1)
  | .byte v => (.byte, v.toNat)
  | .pixelAt _ => (.pixel, 0)
  | .pixel g r b w => (.pixel, g.toNat * 2 ^ 24 + r.toNat * 2 ^ 16 + b.toNat * 2 ^ 8 + w.toNat)
  | .latch => (.latch, 0)
  | .capNone => (.dv, 0x020)
  | .capReject => (.dv, 0x030)
  | .capAccept => (.dv, 0x038)
  | .ovfNone => (.dv, 0x040)
  | .ovfTick => (.dv, 0x044)
  | .ovfTimeout => (.dv, 0x046)
  | .elapsed => (.dv, 0x060)
  | .advRun => (.dv, 0x080)
  | .advHold => (.dv, 0x081)
  | .clear => (.dv, 0x0A0)
  | .renderActive => (.dv, 0x0C0)
  | .renderIdle => (.dv, 0x0C1)
  | .transmit => (.dv, 0x0E0)
  | .settle => (.dv, 0x100)
  | .frame => (.frame, 0)
  | .setPix i g r b w =>
    (.setPix, (BitVec.ofInt 8 i).toNat * 2 ^ 32 + g.toNat * 2 ^ 24 + r.toNat * 2 ^ 16 + b.toNat * 2 ^ 8 + w.toNat)
  | .getPix i => (.getPix, (BitVec.ofInt 8 i).toNat)
  | .lutW j => (.lutW, (BitVec.ofInt 11 j).toNat)
  | .readCaptureEvent => (.capture, 0)
  | .readOverflowEvent => (.overflow, 0)
  | .currentCounterValue => (.counter, 0)
  | .setOutputLevel l => (.level, l.toNat)
  | .waitSlotBoundary => (.slotTick, 1)
  | .delay us => (.delay, us % 65536)

/-- The channel of an operation. -/
def Instr.channel (i : Instr) : Channel := (encodeBits i).1

/-- The encoder: the bytes of an operation on its channel. -/
def encode (i : Instr) : List Byte := bytesOfNumber i.channel.bytes (encodeBits i).2

/-! ### The host's view -/

/-- The channel a table word of so many bits is read on, where the host gives no channel: the one with the
operation selector or the operands of that width, and the latch for none (log 12). -/
def channelOfTableWidth (nbits : Nat) : Channel :=
  if nbits = 0 then .latch
  else if nbits ≤ 8 then .byte
  else if nbits ≤ 16 then .dv
  else if nbits ≤ 24 then .capture
  else if nbits ≤ 32 then .pixel
  else .setPix

/-- The operation the decoder reads from an instruction of `nbits` bits `w`, numbered as spec/opcode_table.json numbers
them. A word with bits above the channel's bytes is refused. -/
def decodeTableWord (nbits w : Nat) : Option Instr :=
  let c := channelOfTableWidth nbits
  if 2 ^ (8 * c.bytes) ≤ w then none
  else
    match decode c (bytesOfNumber c.bytes w) with
    | .ok i => some i
    | .error _ => none

end Sys2Proof
end

