-- ==== Sys2Proof/Machine/Fetch.lean ====
section
/-! DEFINITION. Where a step's operation comes from. There is no program memory (20_memory.md R54): the sequencer forms the
dispatch vector from the phase register and the conditions (30_encoding.md R63), and the operation is the one whose row
the vector selects (R64). -/

namespace Sys2Proof.Machine

/-- The dispatch vector as the bytes of channel DV. -/
def fetchBytes (s : State) : List Byte := bytesOfNumber Channel.dv.bytes (dispatchVector s).toNat

/-- The operation the sequencer performs next. -/
def fetch (s : State) : Except DecodeError Instr := decode .dv (fetchBytes s)

/-- The state with the phase and the conditions that make the dispatch vector select an operation; unchanged for
an operation that no vector selects (30_encoding.md R64, R65; log 2). -/
def selecting (i : Instr) (s : State) : State :=
  let capture (flag : Bool) (ts : U16) : Bnd := { s.bnd with capFlag := flag, capLatch := ts }
  let overflow (flag : Bool) : Bnd := { s.bnd with ovfFlag := flag }
  let inMode (m : Mode) : Spd := { s.spd with mode := m }
  match i with
  | .capNone => { s with phase := 1, bnd := capture false s.bnd.capLatch }
  | .capReject => { s with phase := 1, bnd := capture true s.spd.lastTs }
  | .capAccept => { s with phase := 1, bnd := capture true (s.spd.lastTs - 1) }
  | .ovfNone => { s with phase := 2, bnd := overflow false }
  | .ovfTick => { s with phase := 2, bnd := overflow true, spd := { s.spd with capSeen := true } }
  | .ovfTimeout =>
    { s with
      phase := 2
      bnd := overflow true
      spd := { s.spd with capSeen := false, mode := .active, since := 0xFFFFFFFF } }
  | .elapsed => { s with phase := 3 }
  | .advRun => { s with phase := 4, spd := inMode .active }
  | .advHold => { s with phase := 4, spd := inMode .idle }
  | .clear => { s with phase := 5 }
  | .renderActive => { s with phase := 6, spd := inMode .active }
  | .renderIdle => { s with phase := 6, spd := inMode .idle }
  | .transmit => { s with phase := 7 }
  | .settle => { s with phase := 8 }
  | _ => s

end Sys2Proof.Machine
end

