-- ==== Sys2Proof/Machine/Step.lean ====
section
/-! DEFINITION. One step: one phase of the sequencer (00_scope.md R7, "a finer level, one step per phase"; log 1). -/

namespace Sys2Proof.Machine

/-- The boundary device runs on until the phase starts, the dispatch vector is formed, and the operation it selects is
performed. A phase outside 1..8 selects none and is a fault (30_encoding.md R70). -/
def step (s : State) : Host.Outcome State Fault Refusal :=
  match fetch (advance s) with
  | .ok i => exec i (advance s)
  | .error _ => .fault (.illegalPhase (advance s).phase)

/-- The state whose next step performs the operation of a table word: the phase and conditions that select it, and a
quiet boundary device until then. A word whose operation no dispatch vector selects, or that is none, changes
nothing (log 2). -/
def State.withFetchWord (s : State) (nbits w : Nat) : State :=
  match decodeTableWord nbits w with
  | some i => if i.channel = .dv then { selecting i s with env := [] :: s.env } else s
  | none => s

end Sys2Proof.Machine
end

