-- ==== Sys2Proof/Safety.lean ====
section
/-! DEFINITION. The vocabulary of the claims: what counts as a good state, what an operation leaves alone, and how a wire
trace is read. -/

namespace Sys2Proof.Machine

/-! ### Good states -/

/-- The invariants of 10_state.md R40, and the canonical form of the Pixel Buffer inside its 216 bytes (20_memory.md R41).
"Every channel of every pixel in 0..255" holds by the type of a channel. -/
structure Inv (s : State) : Prop where
  offset_below : s.pos.offset.toNat < posModulus
  idle_speed : s.spd.mode = .idle → s.spd.speed = 0
  phase_low : 1 ≤ s.phase.toNat
  phase_high : s.phase.toNat ≤ 8
  pix_idx : s.enc.pixIdx.toNat ≤ 53
  line_low : s.enc.encState ≠ .shift → s.enc.dout = false
  buffer_wf : s.ren.pb.wf = true
  buffer_below : s.ren.pb.below frameBytes = true

/-- The encoder between two phases: not transmitting, line low, its counters 0 (10_state.md R27, R28, R29). -/
def encAtRest : Enc :=
  { pixIdx := 0, chIdx := 0, bitIdx := 0, dout := false, dutySel := false, encState := .idle }

/-- The largest instantaneous speed, which the smoothed speed never exceeds (10_state.md R16, 41_speed_estimator.md R97). -/
def speedBound (cfg : Config) : Nat := cfg.speedNum / (cfg.debounceTicks * cfg.ticksPerRev)

/-! ### Dispatch -/

/-- The dispatch vectors that select an operation: those with `(DV and mask) = match` (30_encoding.md R64). -/
def SelectedBy (op : Instr) (value mask : BitVec 9) : Prop :=
  ∀ v : BitVec 9, decodeDv v = .ok op ↔ v &&& mask = value

/-! ### Frames -/

/-- Every byte of the Pixel Buffer reads as before. -/
def SameBuffer (s t : State) : Prop := ∀ a, t.ren.pb.read a = s.ren.pb.read a

/-- Configuration, inputs and draws are as before. -/
def SameInputs (s t : State) : Prop := t.cfg = s.cfg ∧ t.env = s.env ∧ t.draws = s.draws

/-- Nothing was sent, answered or waited for. -/
def Silent (s t : State) : Prop := t.wire = s.wire ∧ t.returned = s.returned ∧ t.time = s.time

/-! ### Periods and clamps in plain numbers -/

/-- The period of the latched capture, `(cap_latch − last_ts) mod 2^16` (41_speed_estimator.md R86). -/
def capturePeriod (s : State) : Nat := (s.bnd.capLatch.toNat + 65536 - s.spd.lastTs.toNat) % 65536

/-- The nearest valid pixel index (20_memory.md R47). -/
def nearestPixel (i : Int) : Nat := if i < 0 then 0 else if 53 < i then 53 else i.toNat

/-! ### The wire (30_encoding.md R59, R62) -/

/-- The channel of a pixel, 0 = g, 1 = r, 2 = b, 3 = w (10_state.md R27). -/
def Pixel.channel (p : Pixel) : Nat → Byte
  | 0 => p.g
  | 1 => p.r
  | 2 => p.b
  | _ => p.w

/-- The bit that slot `n` of a frame carries: bit `7 − (n mod 8)` of channel `(n / 8) mod 4` of pixel `n / 32`
(40_serial_encoder.md R78). -/
def slotBit (m : Memory) (n : Nat) : Bool := ((readPixel m (n / 32)).channel (n / 8 % 4)).getLsbD (7 - n % 8)

/-- The symbols of a frame in time order (30_encoding.md R59). -/
def frameSymbols (cfg : Config) (m : Memory) : List WireEvent :=
  (List.range 1728).map fun n => symbol cfg (slotBit m n)

/-- The wire trace in time order, the oldest entry first. -/
def trace (s : State) : List WireEvent := s.wire.reverse

/-- The bit a receiver reads from a symbol: long is 1, short is 0 (30_encoding.md R56). -/
def receivedBit (cfg : Config) : WireEvent → Bool
  | .slot high _ => high == cfg.t1h
  | .low _ => false

/-- A receiver's byte number `k`: the symbols read 8 at a time, MSB first (30_encoding.md R62). -/
def receivedByte (cfg : Config) (symbols : List WireEvent) (k : Nat) : Byte :=
  ((symbols.drop (8 * k)).take 8).foldl (fun v e => v * 2 + (if receivedBit cfg e then 1 else 0)) 0

/-- Operations run one after another, stopping at the first that does not answer a next state. -/
def execAll : List Instr → State → Result
  | [], s => .next s
  | i :: is, s =>
    match exec i s with
    | .next t => execAll is t
    | .fault r => .fault r
    | .refused r => .refused r

/-- PIXEL of each pixel index in ascending order, then LATCH (40_serial_encoder.md R78 steps 2 and 3). -/
def transmissionOps : List Instr :=
  (List.range nPix).map (fun i => Instr.pixelAt (BitVec.ofNat 6 i)) ++ [.latch]

/-- PIXEL of the word of each pixel of a buffer in ascending order, then LATCH. -/
def transmissionWords (m : Memory) : List Instr :=
  (List.range nPix).map (fun i =>
    let p := readPixel m i
    Instr.pixel p.g p.r p.b p.w) ++ [.latch]

end Sys2Proof.Machine
end

