-- ==== Sys2Proof/Certificates/Slice0/Obligations.lean ====
section
/-! DEFINITION. The statements for the provers. Each docstring cites the rules of spec/ it rests on; "log n" is the
model's own choice, notes/assumptions/n.md. -/

open Sys2Proof Sys2Proof.Machine

/-! ## Encoding and dispatch -/

/-- Decoding an encoded operation gives it back, with every operand at every value its bundle admits (30_encoding.md R56 to
R58, R64 to R66). That a channel is named beside the bits is the model's choice (log 12); PIXEL's index form has no encoding
(log 13). -/
def Obligations.DecodeOfEncodeIsIdentity : Prop :=
  ∀ i : Instr, i.wellFormed = true → decode i.channel (encode i) = .ok i

/-- Words written out from the tables of 30_encoding.md R64 to R66 decode to the operations they stand for. -/
def Obligations.TableWordsDecodeToTheirOperations : Prop :=
  decode .dv [0x38, 0x00] = .ok .capAccept ∧ decode .dv [0x46, 0x00] = .ok .ovfTimeout ∧
  decode .dv [0x60, 0x00] = .ok .elapsed ∧ decode .dv [0x80, 0x00] = .ok .advRun ∧
  decode .dv [0xC1, 0x00] = .ok .renderIdle ∧ decode .dv [0xE0, 0x00] = .ok .transmit ∧
  decode .dv [0x00, 0x01] = .ok .settle ∧ decode .byte [0xB0] = .ok (.byte 0xB0) ∧
  decode .pixel [0xFF, 0x00, 0x12, 0xB0] = .ok (.pixel 0xB0 0x12 0x00 0xFF) ∧
  decode .setPix [0x04, 0x03, 0x02, 0x01, 0xFF] = .ok (.setPix (-1) 1 2 3 4) ∧
  decode .lutW [0xF8, 0x07] = .ok (.lutW (-8)) ∧ decode .delay [0x50, 0x00] = .ok (.delay 80)

/-- The operation map: each operation is selected by exactly the vectors with `(DV and mask) = match`, so that the rows are
disjoint, and over phases 1..8 they are exhaustive (30_encoding.md R64). -/
def Obligations.OperationMapSelectsAsTheTable : Prop :=
  SelectedBy .capNone 0x020 0x1F0 ∧ SelectedBy .capReject 0x030 0x1F8 ∧ SelectedBy .capAccept 0x038 0x1F8 ∧
  SelectedBy .ovfNone 0x040 0x1E4 ∧ SelectedBy .ovfTick 0x044 0x1E6 ∧ SelectedBy .ovfTimeout 0x046 0x1E6 ∧
  SelectedBy .elapsed 0x060 0x1E0 ∧ SelectedBy .advRun 0x080 0x1E1 ∧ SelectedBy .advHold 0x081 0x1E1 ∧
  SelectedBy .clear 0x0A0 0x1E0 ∧ SelectedBy .renderActive 0x0C0 0x1E1 ∧ SelectedBy .renderIdle 0x0C1 0x1E1 ∧
  SelectedBy .transmit 0x0E0 0x1E0 ∧ SelectedBy .settle 0x100 0x1E0 ∧
  ∀ v : BitVec 9, 1 ≤ v.toNat / 32 → v.toNat / 32 ≤ 8 → ∃ r ∈ dvRows, decodeDv v = .ok r.op

/-- A step runs the operation its dispatch vector decodes to, on the state the boundary device has run on to (30_encoding.md R63,
R64; that the device runs on before the phase is the model's choice, log 1 and log 3). -/
def Obligations.StepRunsTheDecodedOperation : Prop :=
  ∀ (s : State) (i : Instr), decode .dv (fetchBytes (advance s)) = .ok i → step s = exec i (advance s)

/-- What the boundary device's running on before a phase leaves alone: everything but the device, its inputs and the
draws (00_scope.md R6: SEQ "alone mutates all state of the core"). -/
def Obligations.BoundaryDeviceTouchesNoCoreState : Prop :=
  ∀ s : State, (advance s).phase = s.phase ∧ (advance s).spd = s.spd ∧ (advance s).pos = s.pos ∧
    (advance s).ren = s.ren ∧ (advance s).enc = s.enc ∧ (advance s).cfg = s.cfg ∧ Silent s (advance s)

/-- In every legal phase a step performs the one outcome that the qualifiers of the dispatch vector select
(30_encoding.md R63, R64, 44_sequencer.md R123; the conditions are 10_state.md R25). -/
def Obligations.StepPerformsTheSelectedOutcome : Prop :=
  ∀ s : State, let u := advance s
    (s.phase = 1 → u.bnd.capFlag = false → step s = exec .capNone u) ∧
    (s.phase = 1 → u.bnd.capFlag = true → capturePeriod u < s.cfg.debounceTicks → step s = exec .capReject u) ∧
    (s.phase = 1 → u.bnd.capFlag = true → s.cfg.debounceTicks ≤ capturePeriod u → step s = exec .capAccept u) ∧
    (s.phase = 2 → u.bnd.ovfFlag = false → step s = exec .ovfNone u) ∧
    (s.phase = 2 → u.bnd.ovfFlag = true →
      ¬ (s.spd.capSeen = false ∧ s.spd.mode = .active ∧ 65536 < s.spd.since.toNat) → step s = exec .ovfTick u) ∧
    (s.phase = 2 → u.bnd.ovfFlag = true →
      s.spd.capSeen = false ∧ s.spd.mode = .active ∧ 65536 < s.spd.since.toNat → step s = exec .ovfTimeout u) ∧
    (s.phase = 3 → step s = exec .elapsed u) ∧
    (s.phase = 4 → s.spd.mode = .active → step s = exec .advRun u) ∧
    (s.phase = 4 → s.spd.mode = .idle → step s = exec .advHold u) ∧
    (s.phase = 5 → step s = exec .clear u) ∧
    (s.phase = 6 → s.spd.mode = .active → step s = exec .renderActive u) ∧
    (s.phase = 6 → s.spd.mode = .idle → step s = exec .renderIdle u) ∧
    (s.phase = 7 → step s = exec .transmit u) ∧
    (s.phase = 8 → step s = exec .settle u)

/-- "Phase values 0 and 9..15 select no operation": the step is the fault illegalPhase there, and nowhere else; reset sets
`phase` to 1 and every step sets it to a value in 1..8, so they are unreachable (30_encoding.md R70). -/
def Obligations.StepFaultsExactlyOnIllegalPhases : Prop :=
  State.reset.phase = 1 ∧
    ∀ s : State, ((s.phase = 0 ∨ 9 ≤ s.phase.toNat) → step s = .fault (.illegalPhase s.phase)) ∧
      (1 ≤ s.phase.toNat → s.phase.toNat ≤ 8 →
        ∃ t, step s = .next t ∧ 1 ≤ t.phase.toNat ∧ t.phase.toNat ≤ 8)

/-- "Every operation of phase n < 8 ends with `phase <- n + 1` and SETTLE ends with `phase <- 1`" (44_sequencer.md R124). -/
def Obligations.PhaseAdvancesCyclically : Prop :=
  ∀ s t : State, step s = .next t → t.phase.toNat = if s.phase.toNat = 8 then 1 else s.phase.toNat + 1

/-- Every operation has a next state for every state and every operand (60_exceptions.md R137). -/
def Obligations.EveryOperationAnswersANextState : Prop :=
  ∀ (i : Instr) (s : State), ∃ t, exec i s = .next t

/-! ## Reset and invariants -/

/-- The reset table (10_state.md R39), at every value of what it leaves unspecified: `cnt`, `cap_latch` and the slot
timer's position are not mentioned. -/
def Obligations.ResetLeavesTheTableOfReset : Prop :=
  let s := State.reset
  s.spd.speed = 0 ∧ s.spd.lastTs = 0 ∧ s.spd.since = 0xFFFFFFFF ∧ s.pos.offset = 0 ∧ s.ren.idleTime = 0 ∧
  s.pos.prevNow = 0 ∧ s.pos.elapsed = 0 ∧ s.spd.mode = .active ∧ s.spd.capSeen = false ∧ s.phase = 1 ∧
  s.enc.pixIdx = 0 ∧ s.enc.chIdx = 0 ∧ s.enc.bitIdx = 0 ∧ s.enc.dout = false ∧ s.enc.dutySel = false ∧
  s.enc.encState = .idle ∧ (∀ i < 54, readPixel s.ren.pb i = ⟨0, 0, 0, 0⟩) ∧
  s.bnd.capFlag = false ∧ s.bnd.ovfFlag = false

/-- The invariants of 10_state.md R40 and the speed bound of R16 hold at reset, whatever the boundary device holds and the
configuration is. -/
def Obligations.ResetMeetsTheInvariants : Prop :=
  ∀ (b : Bnd) (c : Config), Inv { State.reset with bnd := b, cfg := c } ∧
    State.reset.spd.speed.toNat ≤ speedBound c

/-- The invariants of 10_state.md R40, and the canonical form of the Pixel Buffer inside its 216 bytes (20_memory.md R41), are
kept by every step. -/
def Obligations.EveryStepKeepsTheInvariants : Prop :=
  ∀ s t : State, Inv s → step s = .next t → Inv t

/-- The speed never exceeds the largest instantaneous speed: every step keeps `speed ≤ SPEED_NUM / (DEBOUNCE_TICKS ×
TICKS_PER_REV)` (41_speed_estimator.md R97 (a), 10_state.md R16). -/
def Obligations.EveryStepKeepsTheSpeedBound : Prop :=
  ∀ s t : State, s.spd.speed.toNat ≤ speedBound s.cfg → step s = .next t → t.spd.speed.toNat ≤ speedBound t.cfg

/-- Between phases the encoder is idle, its line low and its counters 0: at reset, and after every step from such
a state (10_state.md R27, R28, R29). -/
def Obligations.EncoderRestsBetweenPhases : Prop :=
  State.reset.enc = encAtRest ∧
    ∀ s t : State, s.enc = encAtRest → step s = .next t → t.enc = encAtRest

/-- No operation changes the configuration, hence none changes the Lookup Table (10_state.md R30, R36, 20_memory.md R46). -/
def Obligations.NoOperationWritesTheConfiguration : Prop :=
  ∀ (i : Instr) (s t : State), exec i s = .next t → t.cfg = s.cfg

/-- No operation writes outside the 216 bytes of the Pixel Buffer, and each keeps its canonical form (20_memory.md R41, R47; the
canonical form is the model's, log 6). -/
def Obligations.NoOperationLeavesTheBuffer : Prop :=
  ∀ (i : Instr) (s t : State), exec i s = .next t → s.ren.pb.wf = true → s.ren.pb.below frameBytes = true →
    t.ren.pb.wf = true ∧ t.ren.pb.below frameBytes = true

/-! ## SPD -/

/-- CAP.NONE and CAP.REJECT move on to phase 2 and change nothing else but the capture flag, which the poll has cleared
(41_speed_estimator.md R87, R88). -/
def Obligations.CapNoneAndRejectIgnoreTheCapture : Prop :=
  SelectedBy .capNone 0x020 0x1F0 ∧ SelectedBy .capReject 0x030 0x1F8 ∧
  ∀ (s : State) (i : Instr), i = .capNone ∨ i = .capReject →
    exec i s = .next { s with phase := 2, bnd := { s.bnd with capFlag := false } }

/-- CAP.ACCEPT: the filter law on the period's instantaneous speed, the capture registers, Active, and the idle accumulator
restarted when it leaves Idle; nothing else changes (41_speed_estimator.md R86, R89, R90, R91). -/
def Obligations.CapAcceptFiltersTheSpeed : Prop :=
  SelectedBy .capAccept 0x038 0x1F8 ∧
  ∀ s : State, s.bnd.capFlag = true → s.cfg.debounceTicks ≤ capturePeriod s →
    ∃ t, exec .capAccept s = .next t ∧
      t.spd.speed.toNat = (s.spd.speed.toNat - s.spd.speed.toNat / 16)
        + s.cfg.speedNum / (capturePeriod s * s.cfg.ticksPerRev) / 16 ∧
      t.spd.lastTs = s.bnd.capLatch ∧ t.spd.since = 0 ∧ t.spd.capSeen = true ∧ t.spd.mode = .active ∧
      t.ren.idleTime = (if s.spd.mode = .idle then 0 else s.ren.idleTime) ∧ t.phase = 2 ∧
      t.pos = s.pos ∧ t.enc = s.enc ∧ SameBuffer s t ∧ t.bnd = { s.bnd with capFlag := false } ∧
      SameInputs s t ∧ Silent s t

/-- From at or below the target the speed rises to at most the target and stands still exactly when their high parts agree;
from above with a greater high part it falls (41_speed_estimator.md R97 (b)). -/
def Obligations.SpeedConvergesMonotonically : Prop :=
  ∀ s t : State, s.cfg.debounceTicks ≤ capturePeriod s → exec .capAccept s = .next t →
    let target := s.cfg.speedNum / (capturePeriod s * s.cfg.ticksPerRev)
    (s.spd.speed.toNat ≤ target → s.spd.speed.toNat ≤ t.spd.speed.toNat ∧ t.spd.speed.toNat ≤ target ∧
      (t.spd.speed = s.spd.speed ↔ s.spd.speed.toNat / 16 = target / 16)) ∧
    (target / 16 < s.spd.speed.toNat / 16 → t.spd.speed.toNat < s.spd.speed.toNat)

/-- OVF.NONE moves on to phase 3 and changes nothing else; OVF.TICK also clears `cap_seen`. The poll has left the
overflow flag clear (41_speed_estimator.md R92, R93). -/
def Obligations.OvfNoneAndTickKeepTheMode : Prop :=
  SelectedBy .ovfNone 0x040 0x1E4 ∧ SelectedBy .ovfTick 0x044 0x1E6 ∧
  ∀ s : State,
    exec .ovfNone s = .next { s with phase := 3, bnd := { s.bnd with ovfFlag := false } } ∧
    exec .ovfTick s = .next { s with
      phase := 3, spd := { s.spd with capSeen := false }, bnd := { s.bnd with ovfFlag := false } }

/-- OVF.TIMEOUT enters Idle: speed 0, idle accumulator 0, `cap_seen` 0; `last_ts`, `since`, `offset` and the buffer keep
their values (41_speed_estimator.md R94, 60_exceptions.md R143). -/
def Obligations.OvfTimeoutEntersIdle : Prop :=
  SelectedBy .ovfTimeout 0x046 0x1E6 ∧
  ∀ s : State, ∃ t, exec .ovfTimeout s = .next t ∧
    t.spd = { speed := 0, lastTs := s.spd.lastTs, since := s.spd.since, mode := .idle, capSeen := false } ∧
    t.ren.idleTime = 0 ∧ t.phase = 3 ∧ t.pos = s.pos ∧ t.enc = s.enc ∧ SameBuffer s t ∧
    t.bnd = { s.bnd with ovfFlag := false } ∧ SameInputs s t ∧ Silent s t

/-- A step in phase 2 from Active ends in Idle exactly when an overflow is polled and the timeout condition holds, the
length comparison being strict (41_speed_estimator.md R95). -/
def Obligations.TimeoutConditionIsExact : Prop :=
  ∀ s t : State, s.phase = 2 → s.spd.mode = .active → step s = .next t →
    (t.spd.mode = .idle ↔
      ((advance s).bnd.ovfFlag = true ∧ s.spd.capSeen = false ∧ 65536 < s.spd.since.toNat))

/-- Of the operations that are no whole iteration, only OVF.TIMEOUT leaves Active and only CAP.ACCEPT leaves Idle
(41_speed_estimator.md R96). -/
def Obligations.OnlyTimeoutAndAcceptChangeTheMode : Prop :=
  ∀ (i : Instr) (s t : State), i ≠ .frame → exec i s = .next t →
    (s.spd.mode = .active → t.spd.mode = .idle → i = .ovfTimeout) ∧
    (s.spd.mode = .idle → t.spd.mode = .active → i = .capAccept)

/-- "A capture and a timeout can never both take effect in one iteration": after an accepted capture the overflow poll of
the same iteration leaves the mode Active (60_exceptions.md R142). -/
def Obligations.AcceptedCaptureShieldsFromTimeout : Prop :=
  ∀ s t u : State, s.phase = 1 → (advance s).bnd.capFlag = true → s.cfg.debounceTicks ≤ capturePeriod (advance s) →
    step s = .next t → step t = .next u → u.phase = 3 ∧ u.spd.mode = .active

/-! ## POS -/

/-- ELAPSED: the modular difference of two counter readings, `since` saturating; nothing else changes
(42_position_integrator.md R99). -/
def Obligations.ElapsedMeasuresTicks : Prop :=
  SelectedBy .elapsed 0x060 0x1E0 ∧
  ∀ s : State, ∃ t, exec .elapsed s = .next t ∧
    t.pos.elapsed.toNat = (s.bnd.cnt.toNat + 65536 - s.pos.prevNow.toNat) % 65536 ∧
    t.pos.prevNow = s.bnd.cnt ∧ t.pos.offset = s.pos.offset ∧
    t.spd = { s.spd with since := t.spd.since } ∧
    t.spd.since.toNat = min (2 ^ 32 - 1) (s.spd.since.toNat + t.pos.elapsed.toNat) ∧
    t.phase = 4 ∧ t.ren.idleTime = s.ren.idleTime ∧ SameBuffer s t ∧ t.enc = s.enc ∧ t.bnd = s.bnd ∧
    SameInputs s t ∧ Silent s t

/-- ADV.RUN: the truncated product is added modulo 2^31; nothing else changes (42_position_integrator.md R100, R102, R103). -/
def Obligations.AdvRunIntegratesTheSpeed : Prop :=
  SelectedBy .advRun 0x080 0x1E1 ∧
  ∀ s : State, ∃ t, exec .advRun s = .next t ∧
    t.pos.offset.toNat = (s.pos.offset.toNat
      + s.pos.elapsed.toNat * s.spd.speed.toNat * s.cfg.kNum / (s.cfg.kDen * 15625)) % 2 ^ 31 ∧
    t.pos.elapsed = s.pos.elapsed ∧ t.pos.prevNow = s.pos.prevNow ∧ t.phase = 5 ∧ t.spd = s.spd ∧
    t.ren.idleTime = s.ren.idleTime ∧ SameBuffer s t ∧ t.enc = s.enc ∧ t.bnd = s.bnd ∧
    SameInputs s t ∧ Silent s t

/-- The wrap: the new offset is the sum modulo 2^31, bit 31 clear; whenever the increment is below 2^31 that is one conditional
subtraction, and a sum of exactly 2^31 becomes 0 (42_position_integrator.md R103). -/
def Obligations.PositionWrapIsOneSubtraction : Prop :=
  ∀ s t : State, exec .advRun s = .next t →
    let inc := s.pos.elapsed.toNat * s.spd.speed.toNat * s.cfg.kNum / (s.cfg.kDen * 15625)
    t.pos.offset.toNat = (s.pos.offset.toNat + inc) % 2 ^ 31 ∧ t.pos.offset.getLsbD 31 = false ∧
      (s.pos.offset.toNat < 2 ^ 31 → inc < 2 ^ 31 →
        t.pos.offset.toNat = if 2 ^ 31 ≤ s.pos.offset.toNat + inc then s.pos.offset.toNat + inc - 2 ^ 31
          else s.pos.offset.toNat + inc) ∧
      (s.pos.offset.toNat + inc = 2 ^ 31 → t.pos.offset = 0)

/-- ADV.HOLD moves on to phase 5 and changes nothing else (42_position_integrator.md R101). -/
def Obligations.AdvHoldFreezesThePosition : Prop :=
  SelectedBy .advHold 0x081 0x1E1 ∧ ∀ s : State, exec .advHold s = .next { s with phase := 5 }

/-- While the mode is Idle no step writes the offset, and the measurement of phase 3 goes on
(42_position_integrator.md R104). -/
def Obligations.PositionIsFrozenInIdle : Prop :=
  ∀ s t : State, s.spd.mode = .idle → step s = .next t →
    t.pos.offset = s.pos.offset ∧
    (s.phase = 3 → t.pos.prevNow = (advance s).bnd.cnt ∧
      t.pos.elapsed.toNat = ((advance s).bnd.cnt.toNat + 65536 - s.pos.prevNow.toNat) % 65536)

/-! ## REN -/

/-- CLEAR makes all 54 pixels zero, moves on to phase 6 and changes nothing else (43_renderer.md R107). -/
def Obligations.ClearZeroesEveryPixel : Prop :=
  SelectedBy .clear 0x0A0 0x1E0 ∧
  ∀ s : State, ∃ t, exec .clear s = .next t ∧ (∀ i < 54, readPixel t.ren.pb i = ⟨0, 0, 0, 0⟩) ∧
    (∀ a, 216 ≤ a → t.ren.pb.read a = s.ren.pb.read a) ∧ t.phase = 6 ∧ t.ren.idleTime = s.ren.idleTime ∧
    t.spd = s.spd ∧ t.pos = s.pos ∧ t.enc = s.enc ∧ t.bnd = s.bnd ∧ SameInputs s t ∧ Silent s t

/-- SETPIX writes the four bytes exactly as given to the nearest valid pixel, and no other byte (43_renderer.md R108). -/
def Obligations.SetPixWritesTheNearestPixel : Prop :=
  ∀ (s : State) (i : Int) (g r b w : Byte), ∃ t, exec (.setPix i g r b w) s = .next t ∧
    readPixel t.ren.pb (nearestPixel i) = ⟨g, r, b, w⟩ ∧
    (∀ a, a < 4 * nearestPixel i ∨ 4 * nearestPixel i + 3 < a → t.ren.pb.read a = s.ren.pb.read a) ∧
    t.ren.idleTime = s.ren.idleTime ∧ t.phase = s.phase ∧ t.spd = s.spd ∧ t.pos = s.pos ∧ t.enc = s.enc ∧
    t.bnd = s.bnd ∧ SameInputs s t ∧ Silent s t

/-- GETPIX answers the nearest valid pixel and changes nothing else (43_renderer.md R109; where the answer stands is the
model's choice, log 14). -/
def Obligations.GetPixAnswersTheNearestPixel : Prop :=
  ∀ (s : State) (i : Int),
    exec (.getPix i) s = .next { s with returned := .pixel (readPixel s.ren.pb (nearestPixel i)) }

/-- "After SETPIX(i, g, r, b, w) with 0 ≤ i ≤ 53, GETPIX(i) returns (g, r, b, w), and GETPIX(j) for j ≠ i returns what it
returned before" (20_memory.md R45); an index outside 0..53 stands for the nearest pixel (20_memory.md R47,
43_renderer.md R109). That the answer stands in the field returned is the model's choice (log 14). -/
def Obligations.SetPixThenGetPixReturnsTheSame : Prop :=
  ∀ (s t : State) (i j : Int) (g r b w : Byte), 0 ≤ i → i ≤ 53 →
    exec (.setPix i g r b w) s = .next t →
    ∃ v u, exec (.getPix j) s = .next v ∧ exec (.getPix j) t = .next u ∧
      u.returned = if (nearestPixel j : Int) = i then .pixel ⟨g, r, b, w⟩ else v.returned

/-- LUTW answers the table byte inside 0..215 and 0 outside, and changes nothing else (43_renderer.md R110; where the answer
stands is the model's choice, log 14). -/
def Obligations.LutWReadsTheWindow : Prop :=
  ∀ (s : State) (j : Int), ∃ v, exec (.lutW j) s = .next { s with returned := .sample v } ∧
    (∀ k : Nat, j = k → k < 216 → s.cfg.lut[k]? = some v) ∧ (j < 0 ∨ 215 < j → v = 0)

/-- RENDER.IDLE: every position's pair of pixels has blue and white at the scaled sum of the two table samples and green and
red 0; the idle clock then runs on; nothing else changes (43_renderer.md R112, R113, R114, R115). -/
def Obligations.RenderIdleDrawsThePulse : Prop :=
  ∀ s : State, ∃ t, exec .renderIdle s = .next t ∧
    (∀ p : Nat, p < 27 →
      let a : Int := (s.ren.idleTime.toNat * s.cfg.idleRateNum / s.cfg.idleRateDen % 81 : Nat) - 27
      let v : Nat := min 255 (((lutWindow s.cfg (8 * ((p : Int) - a))).toNat
        + (lutWindow s.cfg (8 * ((26 - (p : Int)) - a))).toNat) / 2 ^ s.cfg.idleAtten)
      ∀ q : Nat, q = p ∨ q = 27 + p →
        (readPixel t.ren.pb q).g = 0 ∧ (readPixel t.ren.pb q).r = 0 ∧
        (readPixel t.ren.pb q).b.toNat = v ∧ (readPixel t.ren.pb q).w.toNat = v) ∧
    t.ren.idleTime.toNat = (s.ren.idleTime.toNat + s.pos.elapsed.toNat) % 2 ^ 32 ∧
    (∀ a, 216 ≤ a → t.ren.pb.read a = s.ren.pb.read a) ∧ t.phase = 7 ∧
    t.spd = s.spd ∧ t.pos = s.pos ∧ t.enc = s.enc ∧ t.bnd = s.bnd ∧ SameInputs s t ∧ Silent s t

/-- RENDER.ACTIVE: every position's pair of pixels has the attenuated table samples of its hue index, white 0; nothing
else changes (43_renderer.md R117, R118). -/
def Obligations.RenderActiveDrawsTheRainbow : Prop :=
  ∀ s : State, ∃ t, exec .renderActive s = .next t ∧
    (∀ p : Nat, p < 27 →
      let x : Int := ((s.pos.offset.toNat / 32 * s.cfg.rainbowSpeedup + 8 * p) % 432 : Nat)
      ∀ q : Nat, q = p ∨ q = 27 + p →
        (readPixel t.ren.pb q).r.toNat = (lutWindow s.cfg x).toNat / 2 ^ s.cfg.rainbowAtten ∧
        (readPixel t.ren.pb q).g.toNat = (lutWindow s.cfg (x - 144)).toNat / 2 ^ s.cfg.rainbowAtten ∧
        (readPixel t.ren.pb q).b.toNat = ((lutWindow s.cfg (x - 288)).toNat + (lutWindow s.cfg (x + 144)).toNat)
          / 2 ^ s.cfg.rainbowAtten ∧
        (readPixel t.ren.pb q).w = 0) ∧
    t.ren.idleTime = s.ren.idleTime ∧ (∀ a, 216 ≤ a → t.ren.pb.read a = s.ren.pb.read a) ∧ t.phase = 7 ∧
    t.spd = s.spd ∧ t.pos = s.pos ∧ t.enc = s.enc ∧ t.bnd = s.bnd ∧ SameInputs s t ∧ Silent s t

/-- "After phase 6, `PB[i] = PB[27 + i]` for every i in 0..26, in both modes" (43_renderer.md R119). -/
def Obligations.HalvesAreEqualAfterPhaseSix : Prop :=
  ∀ s t : State, s.phase = 6 → step s = .next t → ∀ i < 27, readPixel t.ren.pb i = readPixel t.ren.pb (27 + i)

/-- The idle pattern is symmetric about position 13 for every scan position (43_renderer.md R113). -/
def Obligations.IdlePulseIsSymmetric : Prop :=
  ∀ s t : State, exec .renderIdle s = .next t → ∀ p < 27, readPixel t.ren.pb p = readPixel t.ren.pb (26 - p)

/-- Offsets that differ only in bits [4:0] render the same frame (43_renderer.md R116 (b), R117, R118 (a)). -/
def Obligations.RainbowIgnoresTheLowOffsetBits : Prop :=
  ∀ (s t t' : State) (o : U32), o.toNat / 32 = s.pos.offset.toNat / 32 → exec .renderActive s = .next t →
    exec .renderActive { s with pos := { s.pos with offset := o } } = .next t' → t'.ren.pb = t.ren.pb

/-- Pixel contents are "not shared across frames": after a phase 6, every byte of the buffer is the same whatever stood in it
before (20_memory.md R52). -/
def Obligations.RendersOverwriteTheWholeBuffer : Prop :=
  ∀ (s t t' : State) (m : Memory), s.phase = 6 → step s = .next t →
    step { s with ren := { s.ren with pb := m } } = .next t' → ∀ a < 216, t'.ren.pb.read a = t.ren.pb.read a

/-! ## ENC -/

/-- SYM0 and SYM1 emit one slot, high for the bit's high time and low for the remainder of T_SLOT, and leave the line low with
the duty threshold of the bit loaded (40_serial_encoder.md R74, R75, R80, R81); the time and slot timer are the model's
account of it (log 8), and that a symbol run by itself drives the line in every encoder state is the model's choice (log 24). -/
def Obligations.SymbolsFillOneSlot : Prop :=
  ∀ (s : State) (bit : Bool), ∃ t, exec (if bit then .sym1 else .sym0) s = .next t ∧
    (let high := if bit then s.cfg.t1h else s.cfg.t0h
     trace t = trace s ++ [.slot high (s.cfg.tSlot - high)] ∧ high + (s.cfg.tSlot - high) = s.cfg.tSlot ∧
     t.time = s.time + toBoundary s + high ∧ t.bnd = { s.bnd with slot := { count := dutyCycles s.cfg bit, within := 0 } }) ∧
    t.enc = { s.enc with
      dout := false, dutySel := bit, encState := if s.enc.encState = .sync then .shift else s.enc.encState } ∧
    t.phase = s.phase ∧ t.spd = s.spd ∧ t.pos = s.pos ∧ t.ren = s.ren ∧ t.returned = s.returned ∧ SameInputs s t

/-- BYTE emits exactly eight symbols, the most significant bit first, back to back in eight slots, and writes nothing but the
encoder and the slot timer (40_serial_encoder.md R76, 30_encoding.md R57; time is the model's own field, log 8). -/
def Obligations.ByteEmitsEightSymbolsMsbFirst : Prop :=
  ∀ (s : State) (v : Byte), ∃ t, exec (.byte v) s = .next t ∧
    trace t = trace s ++ [7, 6, 5, 4, 3, 2, 1, 0].map (fun k => symbol s.cfg (v.getLsbD k)) ∧
    t.enc = { s.enc with
      bitIdx := 0, dout := false, dutySel := v.getLsbD 0
      encState := if s.enc.encState = .sync then .shift else s.enc.encState } ∧
    t.time + toBoundary t = s.time + toBoundary s + 8 * s.cfg.tSlot ∧
    t.bnd = { s.bnd with slot := t.bnd.slot } ∧
    t.phase = s.phase ∧ t.spd = s.spd ∧ t.pos = s.pos ∧ t.ren = s.ren ∧ t.returned = s.returned ∧ SameInputs s t

/-- PIXEL emits the 32 bits of `g ‖ r ‖ b ‖ w` from bit 31 down in 32 slots, of the pixel stored at its index or of the word
given, and writes nothing but the encoder and the slot timer (30_encoding.md R58, 40_serial_encoder.md R77). That it has the
two forms and that an index of 54..63 stands for pixel 53 is the model's reading (log 13); the counters that a PIXEL run by
itself leaves, `ch_idx` 3 where 10_state.md R27 has 0 outside TRANSMIT, are the model's choice (log 24); time is the model's
own field (log 8). -/
def Obligations.PixelEmitsItsWordFromBit31 : Prop :=
  ∀ (s : State) (op : Instr) (p : Pixel) (k : BitVec 6),
    (op = .pixel p.g p.r p.b p.w ∧ k = s.enc.pixIdx) ∨
      (∃ i : BitVec 6, op = .pixelAt i ∧ p = readPixel s.ren.pb (nearestPixel i.toNat) ∧
        k.toNat = nearestPixel i.toNat) →
    ∃ t, exec op s = .next t ∧
    trace t = trace s ++ (List.range 32).map (fun n => symbol s.cfg ((p.g ++ p.r ++ p.b ++ p.w).getLsbD (31 - n))) ∧
    t.enc = { s.enc with
      pixIdx := k, chIdx := 3, bitIdx := 0, dout := false, dutySel := p.w.getLsbD 0
      encState := if s.enc.encState = .sync then .shift else s.enc.encState } ∧
    t.time + toBoundary t = s.time + toBoundary s + 32 * s.cfg.tSlot ∧
    t.bnd = { s.bnd with slot := t.bnd.slot } ∧
    t.phase = s.phase ∧ t.spd = s.spd ∧ t.pos = s.pos ∧ t.ren = s.ren ∧ t.returned = s.returned ∧ SameInputs s t

/-- LATCH holds the line low for T_RESET, at least 80 µs, from the end of the running slot, and leaves the encoder idle
(40_serial_encoder.md R79); the time and slot timer are the model's account of it (log 8, log 19). -/
def Obligations.LatchHoldsTheLineLow : Prop :=
  ∀ s : State, ∃ t, exec .latch s = .next t ∧ trace t = trace s ++ [.low s.cfg.tReset] ∧ 80000000 ≤ s.cfg.tReset ∧
    t.enc = { s.enc with dout := false, encState := .idle } ∧ t.time = s.time + restOfSlot s + s.cfg.tReset ∧
    t.bnd = { s.bnd with slot := runSlot s.cfg s.cfg.tReset { count := 0, within := 0 } } ∧
    t.phase = s.phase ∧ t.spd = s.spd ∧ t.pos = s.pos ∧ t.ren = s.ren ∧ t.returned = s.returned ∧ SameInputs s t

/-- TRANSMIT emits exactly 1728 symbols, slot n carrying bit `7 − (n mod 8)` of channel `(n / 8) mod 4` of pixel `n / 32`, and
one latch interval; the buffer and every register of SPD, POS and REN are unchanged, and the encoder is back at rest
(40_serial_encoder.md R78, 30_encoding.md R59, R60). That of the boundary device only the slot timer moves meanwhile is the
model's account of it (log 1, log 8). -/
def Obligations.TransmitSendsTheFrame : Prop :=
  SelectedBy .transmit 0x0E0 0x1E0 ∧
  ∀ s : State, ∃ t, exec .transmit s = .next t ∧
    trace t = trace s ++ frameSymbols s.cfg s.ren.pb ++ [.low s.cfg.tReset] ∧
    t.phase = 8 ∧ t.enc = encAtRest ∧ t.spd = s.spd ∧ t.pos = s.pos ∧ t.ren = s.ren ∧
    t.bnd = { s.bnd with slot := t.bnd.slot } ∧ t.returned = s.returned ∧ SameInputs s t

/-- TRANSMIT puts on the wire, in the same time, what running PIXEL at each index in ascending order and then LATCH does, and
what PIXEL of each stored word and then LATCH does (40_serial_encoder.md R78). The two forms of PIXEL are log 13; time is the
model's own field (log 8). -/
def Obligations.TransmitIsItsPixelsThenLatch : Prop :=
  ∀ s t : State, exec .transmit s = .next t →
    ∀ ops, ops = transmissionOps ∨ ops = transmissionWords s.ren.pb →
      ∃ u, execAll ops s = .next u ∧ u.wire = t.wire ∧ u.time = t.time ∧ u.bnd = t.bnd

/-- TRANSMIT lasts 1728 slots and T_RESET, after a wait of more than 0 and at most one slot (40_serial_encoder.md R81, R84; time
is the model's own field, log 8). -/
def Obligations.TransmitTakesTheFrameTime : Prop :=
  ∀ s t : State, exec .transmit s = .next t →
    s.time + 1728 * s.cfg.tSlot + s.cfg.tReset < t.time ∧
    t.time ≤ s.time + 1729 * s.cfg.tSlot + s.cfg.tReset

/-- "The 216 bytes of a trace are recovered by reading the classes 8 at a time, MSB first": a receiver of what TRANSMIT
emits gets the buffer, byte for byte in wire order (30_encoding.md R62). -/
def Obligations.ReceiverRecoversTheBuffer : Prop :=
  ∀ s t : State, exec .transmit s = .next t →
    ∀ k < 216, receivedByte s.cfg ((trace t).drop (trace s).length) k
      = (readPixel s.ren.pb (k / 4)).channel (k % 4)

/-- The clocked compare output: low outside ENC_SHIFT; inside a slot of SLOT_CYCLES counts high for exactly the threshold's first
counts, so one falling edge lies inside the slot (40_serial_encoder.md R80). That every configuration has its thresholds in
clock counts, below SLOT_CYCLES, is the model's choice (log 4), and so is that every slot timer is this clocked one (log 21). -/
def Obligations.ClockedSlotFallsOnce : Prop :=
  ∀ (c : Config) (duty : Bool), let threshold := if duty then c.duty1Cycles else c.duty0Cycles
    (∀ st n, st ≠ .shift → compareOutput c st duty n = false) ∧ threshold < c.slotCycles ∧
    (∀ n, compareOutput c .shift duty n = true ↔ n < threshold) ∧
    ((List.range c.slotCycles).filter (compareOutput c .shift duty)).length = threshold

/-! ## SEQ -/

/-- FRAME is the eight operations that the eight phases select one after another: eight steps from phase 1 give what FRAME
gives (44_sequencer.md R122). That FRAME is an operation of exec, the boundary device running on before each line, is the
model's choice (log 20). -/
def Obligations.FrameIsEightSteps : Prop :=
  ∀ s : State, s.phase = 1 → Sys2Proof.core.run 8 s = exec .frame s

/-- FRAME ends in phase 1 with one wire frame sent, which shows the buffer that the iteration rendered, its two halves equal
(44_sequencer.md R122, 40_serial_encoder.md R78, 43_renderer.md R119). That FRAME is an operation of exec and runs from any
phase is the model's choice (log 20). -/
def Obligations.FrameSendsTheRenderedBuffer : Prop :=
  ∀ s : State, ∃ t, exec .frame s = .next t ∧ t.phase = 1 ∧
    trace t = trace s ++ frameSymbols s.cfg t.ren.pb ++ [.low s.cfg.tReset] ∧
    (∀ i < 27, readPixel t.ren.pb i = readPixel t.ren.pb (27 + i)) ∧
    (t.spd.mode = .idle → (∀ i < 54, (readPixel t.ren.pb i).g = 0 ∧ (readPixel t.ren.pb i).r = 0) ∧
      t.pos.offset = s.pos.offset) ∧
    (t.spd.mode = .active → (∀ i < 54, (readPixel t.ren.pb i).w = 0)) ∧
    t.enc = encAtRest ∧ t.cfg = s.cfg ∧ t.returned = s.returned

/-- From phase 3 on no step of an iteration writes the mode, so the position and the render mux of one iteration read the
same mode (44_sequencer.md R126). -/
def Obligations.ModeStandsFromPhaseThreeOn : Prop :=
  ∀ s t : State, 3 ≤ s.phase.toNat → step s = .next t → t.spd.mode = s.spd.mode

/-! ## Boundary primitives and device -/

/-- readCaptureEvent answers the latched timestamp if the flag is set and none otherwise, and clears the flag in the same act
(44_sequencer.md R128; where the answer stands is the model's choice, log 14). -/
def Obligations.ReadCaptureAnswersAndClears : Prop :=
  ∀ s : State, exec .readCaptureEvent s = .next { s with
    bnd := { s.bnd with capFlag := false }
    returned := .capture (if s.bnd.capFlag = true then some s.bnd.capLatch else none) }

/-- readOverflowEvent answers the flag and clears it; currentCounterValue answers the counter and has no side effect
(44_sequencer.md R129, R130; where the answer stands is the model's choice, log 14). -/
def Obligations.ReadOverflowClearsAndCounterDoesNot : Prop :=
  ∀ s : State,
    exec .readOverflowEvent s = .next { s with
      bnd := { s.bnd with ovfFlag := false }, returned := .overflow s.bnd.ovfFlag } ∧
    exec .currentCounterValue s = .next { s with returned := .counter s.bnd.cnt }

/-- setOutputLevel sets the line to the level and does nothing else (44_sequencer.md R131). That it does so in every encoder
state is the model's choice (log 24). -/
def Obligations.SetOutputLevelDrivesTheLine : Prop :=
  ∀ (s : State) (l : Bool), exec (.setOutputLevel l) s = .next { s with enc := { s.enc with dout := l } }

/-- waitSlotBoundary returns at the next slot boundary, after more than 0 and at most T_SLOT; nothing but time and the
slot timer moves (44_sequencer.md R132; time is the model's own field, log 8). -/
def Obligations.WaitEndsAtTheNextBoundary : Prop :=
  ∀ s : State, ∃ t, exec .waitSlotBoundary s = .next t ∧ s.time < t.time ∧
    t.time ≤ s.time + s.cfg.tSlot ∧ (s.bnd.slot.sinceTick s.cfg + (t.time - s.time)) % s.cfg.tSlot = 0 ∧
    t = { s with time := t.time, bnd := { s.bnd with slot := { count := 0, within := 0 } } }

/-- delay returns after that time and does nothing else; SETTLE is a delay of T_SETTLE that moves on to phase 1, and "no
register changes" (44_sequencer.md R133, R125; time and slot timer are the model's account of the wait, log 8). -/
def Obligations.DelayAndSettleOnlyPassTime : Prop :=
  SelectedBy .settle 0x100 0x1E0 ∧
  ∀ (s : State) (us : Nat),
    exec (.delay us) s = .next { s with
      time := s.time + us * 1000000, bnd := { s.bnd with slot := runSlot s.cfg (us * 1000000) s.bnd.slot } } ∧
    exec .settle s = .next { s with
      phase := 1, time := s.time + s.cfg.tSettle * 1000000
      bnd := { s.bnd with slot := runSlot s.cfg (s.cfg.tSettle * 1000000) s.bnd.slot } }

/-- A polled flag is not seen again: after a step in phase 1 no capture is pending, after a step in phase 2 no overflow
(60_exceptions.md R141). -/
def Obligations.PollsAcknowledgeTheirEvent : Prop :=
  ∀ s t : State, step s = .next t →
    (s.phase = 1 → t.bnd.capFlag = false ∧ t.bnd.ovfFlag = (advance s).bnd.ovfFlag) ∧
    (s.phase = 2 → t.bnd.ovfFlag = false ∧ t.bnd.capFlag = (advance s).bnd.capFlag)

/-- The counter counts modulo 65536 and each wrap sets the overflow flag; n ticks are n single ticks; an edge latches the counter
and sets the flag, a later edge overwriting an earlier (10_state.md R31, R32, R33). -/
def Obligations.CounterWrapsAndEdgesLatch : Prop :=
  ∀ (c : Config) (b : Bnd) (n : Nat),
    (applyEvent c b (.ticks 1)).cnt.toNat = (b.cnt.toNat + 1) % 65536 ∧
    (applyEvent c b (.ticks 1)).ovfFlag = (b.ovfFlag || b.cnt == 65535) ∧
    applyEvent c b (.ticks (n + 1)) = applyEvent c (applyEvent c b (.ticks n)) (.ticks 1) ∧
    applyEvent c b .edge = { b with capLatch := b.cnt, capFlag := true } ∧
    (applyEvent c (applyEvent c (applyEvent c b .edge) (.ticks n)) .edge).capLatch
      = b.cnt + BitVec.ofNat 16 n

/-- The slot timer counts clock periods from 0 to SLOT_CYCLES − 1 and wraps: one T_CLK adds one to the count, or takes it from
SLOT_CYCLES − 1 to 0, the tick; a time is the sum of its parts, and the count never leaves its range (40_serial_encoder.md R80;
that the position inside a clock period is kept beside the count is the model's choice, log 8). -/
def Obligations.SlotTimerTicksAtTheWrap : Prop :=
  ∀ (c : Config) (t : SlotTimer) (a b : Nat),
    (t.count < c.slotCycles → t.within < c.tClk →
      runSlot c c.tClk t = { count := if t.count + 1 = c.slotCycles then 0 else t.count + 1, within := t.within }) ∧
    runSlot c (a + b) t = runSlot c b (runSlot c a t) ∧
    (runSlot c a t).count < c.slotCycles ∧ (runSlot c a t).within < c.tClk
end

