-- ==== Sys2Proof/Laws/Memory.lean ====
section
/-! SUPPORT. Laws of the Pixel Buffer's memory: read after write, the canonical form and the address bound are kept, and
canonical memories that read alike are equal. -/

namespace Sys2Proof.Machine

theorem Memory.read_nil (a : Nat) : Memory.read [] a = Memory.unlisted := rfl

theorem Memory.read_cons (k : Nat) (v : Byte) (m : Memory) (a : Nat) :
    Memory.read ((k, v) :: m) a = if k = a then v else Memory.read m a := rfl

theorem Memory.wfFrom_cons (lo k : Nat) (x : Byte) (m : Memory) :
    Memory.wfFrom lo ((k, x) :: m) = true ↔ lo ≤ k ∧ x ≠ Memory.unlisted ∧ Memory.wfFrom (k + 1) m = true := by
  rw [Memory.wfFrom]
  simp only [Bool.and_eq_true, decide_eq_true_eq, and_assoc]

theorem Memory.wfFrom_mono {lo lo' : Nat} (h : lo' ≤ lo) :
    ∀ {m : Memory}, Memory.wfFrom lo m = true → Memory.wfFrom lo' m = true
  | [], _ => rfl
  | (k, x) :: m, hm => by
    rw [Memory.wfFrom_cons] at hm ⊢
    exact ⟨by omega, hm.2⟩

/-- Below its first cell a canonical memory reads as unlisted. -/
theorem Memory.read_below {lo a : Nat} (h : a < lo) :
    ∀ {m : Memory}, Memory.wfFrom lo m = true → Memory.read m a = Memory.unlisted
  | [], _ => rfl
  | (k, x) :: m, hm => by
    rw [Memory.wfFrom_cons] at hm
    rw [Memory.read_cons, if_neg (by omega)]
    exact Memory.read_below (by omega) hm.2.2

theorem Memory.erase_cons (k : Nat) (x : Byte) (m : Memory) (a : Nat) :
    Memory.erase ((k, x) :: m) a = if k = a then Memory.erase m a else (k, x) :: Memory.erase m a := rfl

theorem Memory.insert_cons (k : Nat) (x : Byte) (m : Memory) (a : Nat) (v : Byte) :
    Memory.insert ((k, x) :: m) a v = if a < k then (a, v) :: (k, x) :: m else (k, x) :: Memory.insert m a v := rfl

theorem Memory.read_erase (a b : Nat) :
    ∀ m : Memory, Memory.read (Memory.erase m a) b = if b = a then Memory.unlisted else Memory.read m b
  | [] => by simp [Memory.erase, Memory.read_nil]
  | (k, x) :: m => by
    have ih := Memory.read_erase a b m
    rw [Memory.erase_cons]
    by_cases hk : k = a
    · rw [if_pos hk, ih]
      split
      · rfl
      · rw [Memory.read_cons, if_neg (by omega)]
    · rw [if_neg hk, Memory.read_cons, Memory.read_cons, ih]
      by_cases hb : k = b
      · rw [if_pos hb, if_pos hb, if_neg (by omega)]
      · rw [if_neg hb, if_neg hb]

theorem Memory.read_insert (a b : Nat) (v : Byte) :
    ∀ m : Memory, Memory.read m a = Memory.unlisted → (∀ c ∈ m, c.1 ≠ a) →
      Memory.read (Memory.insert m a v) b = if b = a then v else Memory.read m b
  | [], _, _ => by
    rw [Memory.insert, Memory.read_cons]
    by_cases h : a = b
    · rw [if_pos h, if_pos h.symm]
    · rw [if_neg h, if_neg (Ne.symm h)]
  | (k, x) :: m, ha, hm => by
    have hk : k ≠ a := hm (k, x) List.mem_cons_self
    rw [Memory.read_cons, if_neg hk] at ha
    have ih := Memory.read_insert a b v m ha fun c hc => hm c (List.mem_cons_of_mem _ hc)
    rw [Memory.insert_cons]
    split
    · rw [Memory.read_cons]
      by_cases h : a = b
      · rw [if_pos h, if_pos h.symm]
      · rw [if_neg h, if_neg (Ne.symm h)]
    · rw [Memory.read_cons, Memory.read_cons, ih]
      by_cases h : k = b
      · rw [if_pos h, if_pos h, if_neg (by omega)]
      · rw [if_neg h, if_neg h]

theorem Memory.not_mem_erase (a : Nat) : ∀ (m : Memory), ∀ c ∈ Memory.erase m a, c.1 ≠ a
  | (k, x) :: m, c, hc => by
    rw [Memory.erase_cons] at hc
    split at hc
    · exact Memory.not_mem_erase a m c hc
    · rcases List.mem_cons.mp hc with rfl | hc
      · assumption
      · exact Memory.not_mem_erase a m c hc

/-- The write law, of every memory: the written address reads the value, every other as before. -/
theorem Memory.read_write (m : Memory) (a b : Nat) (v : Byte) :
    (m.write a v).read b = if b = a then v else m.read b := by
  unfold Memory.write
  split
  · rw [Memory.read_erase]; simp [*]
  · rw [Memory.read_insert a b v _ (by simp [Memory.read_erase]) (Memory.not_mem_erase a m), Memory.read_erase]
    split <;> rfl

theorem Memory.read_write_self (m : Memory) (a : Nat) (v : Byte) : (m.write a v).read a = v := by
  rw [Memory.read_write, if_pos rfl]

theorem Memory.read_write_ne (m : Memory) {a b : Nat} (v : Byte) (h : b ≠ a) : (m.write a v).read b = m.read b := by
  rw [Memory.read_write, if_neg h]

theorem Memory.wfFrom_erase (a : Nat) :
    ∀ {lo : Nat} {m : Memory}, Memory.wfFrom lo m = true → Memory.wfFrom lo (Memory.erase m a) = true
  | _, [], _ => rfl
  | lo, (k, x) :: m, hm => by
    rw [Memory.wfFrom_cons] at hm
    rw [Memory.erase_cons]
    split
    · exact Memory.wfFrom_mono (by omega) (Memory.wfFrom_erase a hm.2.2)
    · rw [Memory.wfFrom_cons]; exact ⟨hm.1, hm.2.1, Memory.wfFrom_erase a hm.2.2⟩

theorem Memory.wfFrom_insert (a : Nat) {v : Byte} (hv : v ≠ Memory.unlisted) :
    ∀ {lo : Nat} {m : Memory}, lo ≤ a → (∀ c ∈ m, c.1 ≠ a) → Memory.wfFrom lo m = true →
      Memory.wfFrom lo (Memory.insert m a v) = true
  | lo, [], ha, _, _ => by rw [Memory.insert, Memory.wfFrom_cons]; exact ⟨ha, hv, rfl⟩
  | lo, (k, x) :: m, ha, hne, hm => by
    have hk : k ≠ a := hne (k, x) List.mem_cons_self
    rw [Memory.wfFrom_cons] at hm
    rw [Memory.insert_cons]
    split
    · rw [Memory.wfFrom_cons, Memory.wfFrom_cons]; exact ⟨ha, hv, by omega, hm.2⟩
    · rw [Memory.wfFrom_cons]
      exact ⟨hm.1, hm.2.1, Memory.wfFrom_insert a hv (by omega) (fun c hc => hne c (List.mem_cons_of_mem _ hc)) hm.2.2⟩

theorem Memory.wf_nil : Memory.wf [] = true := rfl

/-- A write keeps the canonical form. -/
theorem Memory.wf_write {m : Memory} (a : Nat) (v : Byte) (h : m.wf = true) : (m.write a v).wf = true := by
  unfold Memory.write
  split
  · exact Memory.wfFrom_erase a h
  · exact Memory.wfFrom_insert a ‹_› (Nat.zero_le a) (Memory.not_mem_erase a m) (Memory.wfFrom_erase a h)

theorem Memory.below_cons (hi k : Nat) (x : Byte) (m : Memory) :
    Memory.below hi ((k, x) :: m) = true ↔ k < hi ∧ Memory.below hi m = true := by
  rw [Memory.below, List.all_cons, Bool.and_eq_true, decide_eq_true_eq, Memory.below]

theorem Memory.below_erase {hi : Nat} (a : Nat) :
    ∀ {m : Memory}, Memory.below hi m = true → Memory.below hi (Memory.erase m a) = true
  | [], _ => rfl
  | (k, x) :: m, hm => by
    rw [Memory.below_cons] at hm
    rw [Memory.erase_cons]
    split
    · exact Memory.below_erase a hm.2
    · rw [Memory.below_cons]; exact ⟨hm.1, Memory.below_erase a hm.2⟩

theorem Memory.below_insert {hi a : Nat} (v : Byte) (ha : a < hi) :
    ∀ {m : Memory}, Memory.below hi m = true → Memory.below hi (Memory.insert m a v) = true
  | [], _ => by rw [Memory.insert, Memory.below_cons]; exact ⟨ha, rfl⟩
  | (k, x) :: m, hm => by
    rw [Memory.below_cons] at hm
    rw [Memory.insert_cons]
    split
    · rw [Memory.below_cons, Memory.below_cons]; exact ⟨ha, hm⟩
    · rw [Memory.below_cons]; exact ⟨hm.1, Memory.below_insert v ha hm.2⟩

/-- A write below a bound lists nothing at or above it. -/
theorem Memory.below_write {hi a : Nat} {m : Memory} (v : Byte) (ha : a < hi) (h : m.below hi = true) :
    (m.write a v).below hi = true := by
  unfold Memory.write
  split
  · exact Memory.below_erase a h
  · exact Memory.below_insert v ha (Memory.below_erase a h)

/-- At or above its bound a memory reads as unlisted. -/
theorem Memory.read_of_below {hi a : Nat} (ha : hi ≤ a) :
    ∀ {m : Memory}, Memory.below hi m = true → Memory.read m a = Memory.unlisted
  | [], _ => rfl
  | (k, x) :: m, hm => by
    rw [Memory.below_cons] at hm
    rw [Memory.read_cons, if_neg (by omega), Memory.read_of_below ha hm.2]

/-- Canonical memories that read alike are equal. -/
theorem Memory.ext_from : ∀ {lo : Nat} {m n : Memory}, Memory.wfFrom lo m = true → Memory.wfFrom lo n = true →
    (∀ a, Memory.read m a = Memory.read n a) → m = n
  | _, [], [], _, _, _ => rfl
  | _, [], (k, x) :: n, _, hn, h => by
    rw [Memory.wfFrom_cons] at hn
    have := h k
    rw [Memory.read_cons, if_pos rfl] at this
    exact absurd this.symm hn.2.1
  | _, (k, x) :: m, [], hm, _, h => by
    rw [Memory.wfFrom_cons] at hm
    have := h k
    rw [Memory.read_cons, if_pos rfl] at this
    exact absurd this hm.2.1
  | _, (k, x) :: m, (l, y) :: n, hm, hn, h => by
    rw [Memory.wfFrom_cons] at hm hn
    have hkl : k = l := by
      rcases lt_trichotomy k l with hlt | heq | hlt
      · have := h k
        rw [Memory.read_cons, Memory.read_cons, if_pos rfl, if_neg (by omega),
          Memory.read_below (by omega) hn.2.2] at this
        exact absurd this hm.2.1
      · exact heq
      · have := h l
        rw [Memory.read_cons, Memory.read_cons, if_pos rfl, if_neg (by omega),
          Memory.read_below (by omega) hm.2.2] at this
        exact absurd this.symm hn.2.1
    subst hkl
    have hxy : x = y := by simpa [Memory.read_cons] using h k
    subst hxy
    have : m = n := by
      refine Memory.ext_from hm.2.2 hn.2.2 fun a => ?_
      by_cases ha : k = a
      · subst ha
        rw [Memory.read_below (Nat.lt_succ_self k) hm.2.2, Memory.read_below (Nat.lt_succ_self k) hn.2.2]
      · simpa [Memory.read_cons, ha] using h a
    rw [this]

theorem Memory.ext_of_wf {m n : Memory} (hm : m.wf = true) (hn : n.wf = true) (h : ∀ a, m.read a = n.read a) : m = n :=
  Memory.ext_from hm hn h

end Sys2Proof.Machine
end

