-- ==== Sys2Proof/Laws/State.lean ====
section
/-! SUPPORT. One lemma per field per named update of the state, true by rfl, so that no later proof unfolds a record
update. -/

namespace Sys2Proof.Machine

@[simp] theorem acknowledgeCapture_phase (s : State) : (acknowledgeCapture s).phase = s.phase := rfl
@[simp] theorem acknowledgeCapture_spd (s : State) : (acknowledgeCapture s).spd = s.spd := rfl
@[simp] theorem acknowledgeCapture_pos (s : State) : (acknowledgeCapture s).pos = s.pos := rfl
@[simp] theorem acknowledgeCapture_ren (s : State) : (acknowledgeCapture s).ren = s.ren := rfl
@[simp] theorem acknowledgeCapture_enc (s : State) : (acknowledgeCapture s).enc = s.enc := rfl
@[simp] theorem acknowledgeCapture_bnd (s : State) : (acknowledgeCapture s).bnd = { s.bnd with capFlag := false } := rfl
@[simp] theorem acknowledgeCapture_cfg (s : State) : (acknowledgeCapture s).cfg = s.cfg := rfl
@[simp] theorem acknowledgeCapture_wire (s : State) : (acknowledgeCapture s).wire = s.wire := rfl
@[simp] theorem acknowledgeCapture_returned (s : State) : (acknowledgeCapture s).returned = s.returned := rfl
@[simp] theorem acknowledgeCapture_time (s : State) : (acknowledgeCapture s).time = s.time := rfl
@[simp] theorem acknowledgeCapture_env (s : State) : (acknowledgeCapture s).env = s.env := rfl
@[simp] theorem acknowledgeCapture_draws (s : State) : (acknowledgeCapture s).draws = s.draws := rfl

@[simp] theorem acknowledgeOverflow_phase (s : State) : (acknowledgeOverflow s).phase = s.phase := rfl
@[simp] theorem acknowledgeOverflow_spd (s : State) : (acknowledgeOverflow s).spd = s.spd := rfl
@[simp] theorem acknowledgeOverflow_pos (s : State) : (acknowledgeOverflow s).pos = s.pos := rfl
@[simp] theorem acknowledgeOverflow_ren (s : State) : (acknowledgeOverflow s).ren = s.ren := rfl
@[simp] theorem acknowledgeOverflow_enc (s : State) : (acknowledgeOverflow s).enc = s.enc := rfl
@[simp] theorem acknowledgeOverflow_bnd (s : State) :
    (acknowledgeOverflow s).bnd = { s.bnd with ovfFlag := false } := rfl
@[simp] theorem acknowledgeOverflow_cfg (s : State) : (acknowledgeOverflow s).cfg = s.cfg := rfl
@[simp] theorem acknowledgeOverflow_wire (s : State) : (acknowledgeOverflow s).wire = s.wire := rfl
@[simp] theorem acknowledgeOverflow_returned (s : State) : (acknowledgeOverflow s).returned = s.returned := rfl
@[simp] theorem acknowledgeOverflow_time (s : State) : (acknowledgeOverflow s).time = s.time := rfl
@[simp] theorem acknowledgeOverflow_env (s : State) : (acknowledgeOverflow s).env = s.env := rfl
@[simp] theorem acknowledgeOverflow_draws (s : State) : (acknowledgeOverflow s).draws = s.draws := rfl

@[simp] theorem passTime_phase (ps : Nat) (s : State) : (passTime ps s).phase = s.phase := rfl
@[simp] theorem passTime_spd (ps : Nat) (s : State) : (passTime ps s).spd = s.spd := rfl
@[simp] theorem passTime_pos (ps : Nat) (s : State) : (passTime ps s).pos = s.pos := rfl
@[simp] theorem passTime_ren (ps : Nat) (s : State) : (passTime ps s).ren = s.ren := rfl
@[simp] theorem passTime_enc (ps : Nat) (s : State) : (passTime ps s).enc = s.enc := rfl
@[simp] theorem passTime_bnd (ps : Nat) (s : State) :
    (passTime ps s).bnd = { s.bnd with slot := runSlot s.cfg ps s.bnd.slot } := rfl
@[simp] theorem passTime_cfg (ps : Nat) (s : State) : (passTime ps s).cfg = s.cfg := rfl
@[simp] theorem passTime_wire (ps : Nat) (s : State) : (passTime ps s).wire = s.wire := rfl
@[simp] theorem passTime_returned (ps : Nat) (s : State) : (passTime ps s).returned = s.returned := rfl
@[simp] theorem passTime_time (ps : Nat) (s : State) : (passTime ps s).time = s.time + ps := rfl
@[simp] theorem passTime_env (ps : Nat) (s : State) : (passTime ps s).env = s.env := rfl
@[simp] theorem passTime_draws (ps : Nat) (s : State) : (passTime ps s).draws = s.draws := rfl

@[simp] theorem followCompare_phase (s : State) : (followCompare s).phase = s.phase := rfl
@[simp] theorem followCompare_spd (s : State) : (followCompare s).spd = s.spd := rfl
@[simp] theorem followCompare_pos (s : State) : (followCompare s).pos = s.pos := rfl
@[simp] theorem followCompare_ren (s : State) : (followCompare s).ren = s.ren := rfl
@[simp] theorem followCompare_enc (s : State) :
    (followCompare s).enc = { s.enc with dout := compareOutput s.cfg .shift s.enc.dutySel s.bnd.slot.count } := rfl
@[simp] theorem followCompare_bnd (s : State) : (followCompare s).bnd = s.bnd := rfl
@[simp] theorem followCompare_cfg (s : State) : (followCompare s).cfg = s.cfg := rfl
@[simp] theorem followCompare_wire (s : State) : (followCompare s).wire = s.wire := rfl
@[simp] theorem followCompare_returned (s : State) : (followCompare s).returned = s.returned := rfl
@[simp] theorem followCompare_time (s : State) : (followCompare s).time = s.time := rfl
@[simp] theorem followCompare_env (s : State) : (followCompare s).env = s.env := rfl
@[simp] theorem followCompare_draws (s : State) : (followCompare s).draws = s.draws := rfl

@[simp] theorem waitBoundary_phase (s : State) : (waitBoundary s).phase = s.phase := rfl
@[simp] theorem waitBoundary_spd (s : State) : (waitBoundary s).spd = s.spd := rfl
@[simp] theorem waitBoundary_pos (s : State) : (waitBoundary s).pos = s.pos := rfl
@[simp] theorem waitBoundary_ren (s : State) : (waitBoundary s).ren = s.ren := rfl
@[simp] theorem waitBoundary_enc (s : State) : (waitBoundary s).enc = s.enc := rfl
@[simp] theorem waitBoundary_cfg (s : State) : (waitBoundary s).cfg = s.cfg := rfl
@[simp] theorem waitBoundary_wire (s : State) : (waitBoundary s).wire = s.wire := rfl
@[simp] theorem waitBoundary_returned (s : State) : (waitBoundary s).returned = s.returned := rfl
@[simp] theorem waitBoundary_time (s : State) : (waitBoundary s).time = s.time + toBoundary s := rfl
@[simp] theorem waitBoundary_env (s : State) : (waitBoundary s).env = s.env := rfl
@[simp] theorem waitBoundary_draws (s : State) : (waitBoundary s).draws = s.draws := rfl

@[simp] theorem driveLine_phase (l : Bool) (s : State) : (driveLine l s).phase = s.phase := rfl
@[simp] theorem driveLine_spd (l : Bool) (s : State) : (driveLine l s).spd = s.spd := rfl
@[simp] theorem driveLine_pos (l : Bool) (s : State) : (driveLine l s).pos = s.pos := rfl
@[simp] theorem driveLine_ren (l : Bool) (s : State) : (driveLine l s).ren = s.ren := rfl
@[simp] theorem driveLine_enc (l : Bool) (s : State) : (driveLine l s).enc = { s.enc with dout := l } := rfl
@[simp] theorem driveLine_bnd (l : Bool) (s : State) : (driveLine l s).bnd = s.bnd := rfl
@[simp] theorem driveLine_cfg (l : Bool) (s : State) : (driveLine l s).cfg = s.cfg := rfl
@[simp] theorem driveLine_wire (l : Bool) (s : State) : (driveLine l s).wire = s.wire := rfl
@[simp] theorem driveLine_returned (l : Bool) (s : State) : (driveLine l s).returned = s.returned := rfl
@[simp] theorem driveLine_time (l : Bool) (s : State) : (driveLine l s).time = s.time := rfl
@[simp] theorem driveLine_env (l : Bool) (s : State) : (driveLine l s).env = s.env := rfl
@[simp] theorem driveLine_draws (l : Bool) (s : State) : (driveLine l s).draws = s.draws := rfl

@[simp] theorem emit_phase (e : WireEvent) (s : State) : (emit e s).phase = s.phase := rfl
@[simp] theorem emit_spd (e : WireEvent) (s : State) : (emit e s).spd = s.spd := rfl
@[simp] theorem emit_pos (e : WireEvent) (s : State) : (emit e s).pos = s.pos := rfl
@[simp] theorem emit_ren (e : WireEvent) (s : State) : (emit e s).ren = s.ren := rfl
@[simp] theorem emit_enc (e : WireEvent) (s : State) : (emit e s).enc = s.enc := rfl
@[simp] theorem emit_bnd (e : WireEvent) (s : State) : (emit e s).bnd = s.bnd := rfl
@[simp] theorem emit_cfg (e : WireEvent) (s : State) : (emit e s).cfg = s.cfg := rfl
@[simp] theorem emit_wire (e : WireEvent) (s : State) : (emit e s).wire = e :: s.wire := rfl
@[simp] theorem emit_returned (e : WireEvent) (s : State) : (emit e s).returned = s.returned := rfl
@[simp] theorem emit_time (e : WireEvent) (s : State) : (emit e s).time = s.time := rfl
@[simp] theorem emit_env (e : WireEvent) (s : State) : (emit e s).env = s.env := rfl
@[simp] theorem emit_draws (e : WireEvent) (s : State) : (emit e s).draws = s.draws := rfl

@[simp] theorem enterIdle_phase (s : State) : (enterIdle s).phase = s.phase := rfl
@[simp] theorem enterIdle_spd (s : State) :
    (enterIdle s).spd = { s.spd with mode := .idle, speed := 0, capSeen := false } := rfl
@[simp] theorem enterIdle_pos (s : State) : (enterIdle s).pos = s.pos := rfl
@[simp] theorem enterIdle_ren (s : State) : (enterIdle s).ren = { s.ren with idleTime := 0 } := rfl
@[simp] theorem enterIdle_enc (s : State) : (enterIdle s).enc = s.enc := rfl
@[simp] theorem enterIdle_bnd (s : State) : (enterIdle s).bnd = s.bnd := rfl
@[simp] theorem enterIdle_cfg (s : State) : (enterIdle s).cfg = s.cfg := rfl
@[simp] theorem enterIdle_wire (s : State) : (enterIdle s).wire = s.wire := rfl
@[simp] theorem enterIdle_returned (s : State) : (enterIdle s).returned = s.returned := rfl
@[simp] theorem enterIdle_time (s : State) : (enterIdle s).time = s.time := rfl
@[simp] theorem enterIdle_env (s : State) : (enterIdle s).env = s.env := rfl
@[simp] theorem enterIdle_draws (s : State) : (enterIdle s).draws = s.draws := rfl

@[simp] theorem leaveIdle_phase (s : State) : (leaveIdle s).phase = s.phase := rfl
@[simp] theorem leaveIdle_spd (s : State) : (leaveIdle s).spd = { s.spd with mode := .active } := rfl
@[simp] theorem leaveIdle_pos (s : State) : (leaveIdle s).pos = s.pos := rfl
@[simp] theorem leaveIdle_ren (s : State) :
    (leaveIdle s).ren = { s.ren with idleTime := if s.spd.mode = .idle then 0 else s.ren.idleTime } := rfl
@[simp] theorem leaveIdle_enc (s : State) : (leaveIdle s).enc = s.enc := rfl
@[simp] theorem leaveIdle_bnd (s : State) : (leaveIdle s).bnd = s.bnd := rfl
@[simp] theorem leaveIdle_cfg (s : State) : (leaveIdle s).cfg = s.cfg := rfl
@[simp] theorem leaveIdle_wire (s : State) : (leaveIdle s).wire = s.wire := rfl
@[simp] theorem leaveIdle_returned (s : State) : (leaveIdle s).returned = s.returned := rfl
@[simp] theorem leaveIdle_time (s : State) : (leaveIdle s).time = s.time := rfl
@[simp] theorem leaveIdle_env (s : State) : (leaveIdle s).env = s.env := rfl
@[simp] theorem leaveIdle_draws (s : State) : (leaveIdle s).draws = s.draws := rfl

@[simp] theorem goPhase_phase (n : BitVec 4) (s : State) : (goPhase n s).phase = n := rfl
@[simp] theorem goPhase_spd (n : BitVec 4) (s : State) : (goPhase n s).spd = s.spd := rfl
@[simp] theorem goPhase_pos (n : BitVec 4) (s : State) : (goPhase n s).pos = s.pos := rfl
@[simp] theorem goPhase_ren (n : BitVec 4) (s : State) : (goPhase n s).ren = s.ren := rfl
@[simp] theorem goPhase_enc (n : BitVec 4) (s : State) : (goPhase n s).enc = s.enc := rfl
@[simp] theorem goPhase_bnd (n : BitVec 4) (s : State) : (goPhase n s).bnd = s.bnd := rfl
@[simp] theorem goPhase_cfg (n : BitVec 4) (s : State) : (goPhase n s).cfg = s.cfg := rfl
@[simp] theorem goPhase_wire (n : BitVec 4) (s : State) : (goPhase n s).wire = s.wire := rfl
@[simp] theorem goPhase_returned (n : BitVec 4) (s : State) : (goPhase n s).returned = s.returned := rfl
@[simp] theorem goPhase_time (n : BitVec 4) (s : State) : (goPhase n s).time = s.time := rfl
@[simp] theorem goPhase_env (n : BitVec 4) (s : State) : (goPhase n s).env = s.env := rfl
@[simp] theorem goPhase_draws (n : BitVec 4) (s : State) : (goPhase n s).draws = s.draws := rfl

@[simp] theorem acceptCapture_phase (ts : U16) (s : State) : (acceptCapture ts s).phase = s.phase := rfl
@[simp] theorem acceptCapture_spd (ts : U16) (s : State) :
    (acceptCapture ts s).spd =
    { s.spd with speed := smooth s.spd.speed (instSpeed s.cfg (period ts s.spd.lastTs)),
                 lastTs := ts, since := 0, capSeen := true } := rfl
@[simp] theorem acceptCapture_pos (ts : U16) (s : State) : (acceptCapture ts s).pos = s.pos := rfl
@[simp] theorem acceptCapture_ren (ts : U16) (s : State) : (acceptCapture ts s).ren = s.ren := rfl
@[simp] theorem acceptCapture_enc (ts : U16) (s : State) : (acceptCapture ts s).enc = s.enc := rfl
@[simp] theorem acceptCapture_bnd (ts : U16) (s : State) : (acceptCapture ts s).bnd = s.bnd := rfl
@[simp] theorem acceptCapture_cfg (ts : U16) (s : State) : (acceptCapture ts s).cfg = s.cfg := rfl
@[simp] theorem acceptCapture_wire (ts : U16) (s : State) : (acceptCapture ts s).wire = s.wire := rfl
@[simp] theorem acceptCapture_returned (ts : U16) (s : State) : (acceptCapture ts s).returned = s.returned := rfl
@[simp] theorem acceptCapture_time (ts : U16) (s : State) : (acceptCapture ts s).time = s.time := rfl
@[simp] theorem acceptCapture_env (ts : U16) (s : State) : (acceptCapture ts s).env = s.env := rfl
@[simp] theorem acceptCapture_draws (ts : U16) (s : State) : (acceptCapture ts s).draws = s.draws := rfl

@[simp] theorem withBuffer_phase (m : Memory) (s : State) : (withBuffer m s).phase = s.phase := rfl
@[simp] theorem withBuffer_spd (m : Memory) (s : State) : (withBuffer m s).spd = s.spd := rfl
@[simp] theorem withBuffer_pos (m : Memory) (s : State) : (withBuffer m s).pos = s.pos := rfl
@[simp] theorem withBuffer_ren (m : Memory) (s : State) : (withBuffer m s).ren = { s.ren with pb := m } := rfl
@[simp] theorem withBuffer_enc (m : Memory) (s : State) : (withBuffer m s).enc = s.enc := rfl
@[simp] theorem withBuffer_bnd (m : Memory) (s : State) : (withBuffer m s).bnd = s.bnd := rfl
@[simp] theorem withBuffer_cfg (m : Memory) (s : State) : (withBuffer m s).cfg = s.cfg := rfl
@[simp] theorem withBuffer_wire (m : Memory) (s : State) : (withBuffer m s).wire = s.wire := rfl
@[simp] theorem withBuffer_returned (m : Memory) (s : State) : (withBuffer m s).returned = s.returned := rfl
@[simp] theorem withBuffer_time (m : Memory) (s : State) : (withBuffer m s).time = s.time := rfl
@[simp] theorem withBuffer_env (m : Memory) (s : State) : (withBuffer m s).env = s.env := rfl
@[simp] theorem withBuffer_draws (m : Memory) (s : State) : (withBuffer m s).draws = s.draws := rfl

@[simp] theorem answer_phase (r : Returned) (s : State) : (answer r s).phase = s.phase := rfl
@[simp] theorem answer_spd (r : Returned) (s : State) : (answer r s).spd = s.spd := rfl
@[simp] theorem answer_pos (r : Returned) (s : State) : (answer r s).pos = s.pos := rfl
@[simp] theorem answer_ren (r : Returned) (s : State) : (answer r s).ren = s.ren := rfl
@[simp] theorem answer_enc (r : Returned) (s : State) : (answer r s).enc = s.enc := rfl
@[simp] theorem answer_bnd (r : Returned) (s : State) : (answer r s).bnd = s.bnd := rfl
@[simp] theorem answer_cfg (r : Returned) (s : State) : (answer r s).cfg = s.cfg := rfl
@[simp] theorem answer_wire (r : Returned) (s : State) : (answer r s).wire = s.wire := rfl
@[simp] theorem answer_returned (r : Returned) (s : State) : (answer r s).returned = r := rfl
@[simp] theorem answer_time (r : Returned) (s : State) : (answer r s).time = s.time := rfl
@[simp] theorem answer_env (r : Returned) (s : State) : (answer r s).env = s.env := rfl
@[simp] theorem answer_draws (r : Returned) (s : State) : (answer r s).draws = s.draws := rfl

@[simp] theorem runIdleClock_phase (s : State) : (runIdleClock s).phase = s.phase := rfl
@[simp] theorem runIdleClock_spd (s : State) : (runIdleClock s).spd = s.spd := rfl
@[simp] theorem runIdleClock_pos (s : State) : (runIdleClock s).pos = s.pos := rfl
@[simp] theorem runIdleClock_ren (s : State) :
    (runIdleClock s).ren = { s.ren with idleTime := s.ren.idleTime + s.pos.elapsed.setWidth 32 } := rfl
@[simp] theorem runIdleClock_enc (s : State) : (runIdleClock s).enc = s.enc := rfl
@[simp] theorem runIdleClock_bnd (s : State) : (runIdleClock s).bnd = s.bnd := rfl
@[simp] theorem runIdleClock_cfg (s : State) : (runIdleClock s).cfg = s.cfg := rfl
@[simp] theorem runIdleClock_wire (s : State) : (runIdleClock s).wire = s.wire := rfl
@[simp] theorem runIdleClock_returned (s : State) : (runIdleClock s).returned = s.returned := rfl
@[simp] theorem runIdleClock_time (s : State) : (runIdleClock s).time = s.time := rfl
@[simp] theorem runIdleClock_env (s : State) : (runIdleClock s).env = s.env := rfl
@[simp] theorem runIdleClock_draws (s : State) : (runIdleClock s).draws = s.draws := rfl

@[simp] theorem loadDuty_phase (b : Bool) (s : State) : (loadDuty b s).phase = s.phase := rfl
@[simp] theorem loadDuty_spd (b : Bool) (s : State) : (loadDuty b s).spd = s.spd := rfl
@[simp] theorem loadDuty_pos (b : Bool) (s : State) : (loadDuty b s).pos = s.pos := rfl
@[simp] theorem loadDuty_ren (b : Bool) (s : State) : (loadDuty b s).ren = s.ren := rfl
@[simp] theorem loadDuty_enc (b : Bool) (s : State) :
    (loadDuty b s).enc = { s.enc with dutySel := b, encState := if s.enc.encState = .sync then .shift else s.enc.encState } := rfl
@[simp] theorem loadDuty_bnd (b : Bool) (s : State) : (loadDuty b s).bnd = s.bnd := rfl
@[simp] theorem loadDuty_cfg (b : Bool) (s : State) : (loadDuty b s).cfg = s.cfg := rfl
@[simp] theorem loadDuty_wire (b : Bool) (s : State) : (loadDuty b s).wire = s.wire := rfl
@[simp] theorem loadDuty_returned (b : Bool) (s : State) : (loadDuty b s).returned = s.returned := rfl
@[simp] theorem loadDuty_time (b : Bool) (s : State) : (loadDuty b s).time = s.time := rfl
@[simp] theorem loadDuty_env (b : Bool) (s : State) : (loadDuty b s).env = s.env := rfl
@[simp] theorem loadDuty_draws (b : Bool) (s : State) : (loadDuty b s).draws = s.draws := rfl

@[simp] theorem atBit_phase (k : Nat) (s : State) : (atBit k s).phase = s.phase := rfl
@[simp] theorem atBit_spd (k : Nat) (s : State) : (atBit k s).spd = s.spd := rfl
@[simp] theorem atBit_pos (k : Nat) (s : State) : (atBit k s).pos = s.pos := rfl
@[simp] theorem atBit_ren (k : Nat) (s : State) : (atBit k s).ren = s.ren := rfl
@[simp] theorem atBit_enc (k : Nat) (s : State) : (atBit k s).enc = { s.enc with bitIdx := BitVec.ofNat 3 k } := rfl
@[simp] theorem atBit_bnd (k : Nat) (s : State) : (atBit k s).bnd = s.bnd := rfl
@[simp] theorem atBit_cfg (k : Nat) (s : State) : (atBit k s).cfg = s.cfg := rfl
@[simp] theorem atBit_wire (k : Nat) (s : State) : (atBit k s).wire = s.wire := rfl
@[simp] theorem atBit_returned (k : Nat) (s : State) : (atBit k s).returned = s.returned := rfl
@[simp] theorem atBit_time (k : Nat) (s : State) : (atBit k s).time = s.time := rfl
@[simp] theorem atBit_env (k : Nat) (s : State) : (atBit k s).env = s.env := rfl
@[simp] theorem atBit_draws (k : Nat) (s : State) : (atBit k s).draws = s.draws := rfl

@[simp] theorem atChannel_phase (k : Nat) (s : State) : (atChannel k s).phase = s.phase := rfl
@[simp] theorem atChannel_spd (k : Nat) (s : State) : (atChannel k s).spd = s.spd := rfl
@[simp] theorem atChannel_pos (k : Nat) (s : State) : (atChannel k s).pos = s.pos := rfl
@[simp] theorem atChannel_ren (k : Nat) (s : State) : (atChannel k s).ren = s.ren := rfl
@[simp] theorem atChannel_enc (k : Nat) (s : State) :
    (atChannel k s).enc = { s.enc with chIdx := BitVec.ofNat 2 k } := rfl
@[simp] theorem atChannel_bnd (k : Nat) (s : State) : (atChannel k s).bnd = s.bnd := rfl
@[simp] theorem atChannel_cfg (k : Nat) (s : State) : (atChannel k s).cfg = s.cfg := rfl
@[simp] theorem atChannel_wire (k : Nat) (s : State) : (atChannel k s).wire = s.wire := rfl
@[simp] theorem atChannel_returned (k : Nat) (s : State) : (atChannel k s).returned = s.returned := rfl
@[simp] theorem atChannel_time (k : Nat) (s : State) : (atChannel k s).time = s.time := rfl
@[simp] theorem atChannel_env (k : Nat) (s : State) : (atChannel k s).env = s.env := rfl
@[simp] theorem atChannel_draws (k : Nat) (s : State) : (atChannel k s).draws = s.draws := rfl

@[simp] theorem atPixel_phase (k : Nat) (s : State) : (atPixel k s).phase = s.phase := rfl
@[simp] theorem atPixel_spd (k : Nat) (s : State) : (atPixel k s).spd = s.spd := rfl
@[simp] theorem atPixel_pos (k : Nat) (s : State) : (atPixel k s).pos = s.pos := rfl
@[simp] theorem atPixel_ren (k : Nat) (s : State) : (atPixel k s).ren = s.ren := rfl
@[simp] theorem atPixel_enc (k : Nat) (s : State) : (atPixel k s).enc = { s.enc with pixIdx := BitVec.ofNat 6 k } := rfl
@[simp] theorem atPixel_bnd (k : Nat) (s : State) : (atPixel k s).bnd = s.bnd := rfl
@[simp] theorem atPixel_cfg (k : Nat) (s : State) : (atPixel k s).cfg = s.cfg := rfl
@[simp] theorem atPixel_wire (k : Nat) (s : State) : (atPixel k s).wire = s.wire := rfl
@[simp] theorem atPixel_returned (k : Nat) (s : State) : (atPixel k s).returned = s.returned := rfl
@[simp] theorem atPixel_time (k : Nat) (s : State) : (atPixel k s).time = s.time := rfl
@[simp] theorem atPixel_env (k : Nat) (s : State) : (atPixel k s).env = s.env := rfl
@[simp] theorem atPixel_draws (k : Nat) (s : State) : (atPixel k s).draws = s.draws := rfl

@[simp] theorem toEncState_phase (e : EncState) (s : State) : (toEncState e s).phase = s.phase := rfl
@[simp] theorem toEncState_spd (e : EncState) (s : State) : (toEncState e s).spd = s.spd := rfl
@[simp] theorem toEncState_pos (e : EncState) (s : State) : (toEncState e s).pos = s.pos := rfl
@[simp] theorem toEncState_ren (e : EncState) (s : State) : (toEncState e s).ren = s.ren := rfl
@[simp] theorem toEncState_enc (e : EncState) (s : State) : (toEncState e s).enc = { s.enc with encState := e } := rfl
@[simp] theorem toEncState_bnd (e : EncState) (s : State) : (toEncState e s).bnd = s.bnd := rfl
@[simp] theorem toEncState_cfg (e : EncState) (s : State) : (toEncState e s).cfg = s.cfg := rfl
@[simp] theorem toEncState_wire (e : EncState) (s : State) : (toEncState e s).wire = s.wire := rfl
@[simp] theorem toEncState_returned (e : EncState) (s : State) : (toEncState e s).returned = s.returned := rfl
@[simp] theorem toEncState_time (e : EncState) (s : State) : (toEncState e s).time = s.time := rfl
@[simp] theorem toEncState_env (e : EncState) (s : State) : (toEncState e s).env = s.env := rfl
@[simp] theorem toEncState_draws (e : EncState) (s : State) : (toEncState e s).draws = s.draws := rfl

@[simp] theorem endTransmit_phase (s : State) : (endTransmit s).phase = s.phase := rfl
@[simp] theorem endTransmit_spd (s : State) : (endTransmit s).spd = s.spd := rfl
@[simp] theorem endTransmit_pos (s : State) : (endTransmit s).pos = s.pos := rfl
@[simp] theorem endTransmit_ren (s : State) : (endTransmit s).ren = s.ren := rfl
@[simp] theorem endTransmit_enc (s : State) :
    (endTransmit s).enc = { s.enc with pixIdx := 0, chIdx := 0, bitIdx := 0, dutySel := false } := rfl
@[simp] theorem endTransmit_bnd (s : State) : (endTransmit s).bnd = s.bnd := rfl
@[simp] theorem endTransmit_cfg (s : State) : (endTransmit s).cfg = s.cfg := rfl
@[simp] theorem endTransmit_wire (s : State) : (endTransmit s).wire = s.wire := rfl
@[simp] theorem endTransmit_returned (s : State) : (endTransmit s).returned = s.returned := rfl
@[simp] theorem endTransmit_time (s : State) : (endTransmit s).time = s.time := rfl
@[simp] theorem endTransmit_env (s : State) : (endTransmit s).env = s.env := rfl
@[simp] theorem endTransmit_draws (s : State) : (endTransmit s).draws = s.draws := rfl

@[simp] theorem beginSync_phase (s : State) : (beginSync s).phase = s.phase := rfl
@[simp] theorem beginSync_spd (s : State) : (beginSync s).spd = s.spd := rfl
@[simp] theorem beginSync_pos (s : State) : (beginSync s).pos = s.pos := rfl
@[simp] theorem beginSync_ren (s : State) : (beginSync s).ren = s.ren := rfl
@[simp] theorem beginSync_enc (s : State) :
    (beginSync s).enc = { s.enc with encState := .sync, dutySel := (readPixel s.ren.pb 0).g.getLsbD 7 } := rfl
@[simp] theorem beginSync_bnd (s : State) : (beginSync s).bnd = s.bnd := rfl
@[simp] theorem beginSync_cfg (s : State) : (beginSync s).cfg = s.cfg := rfl
@[simp] theorem beginSync_wire (s : State) : (beginSync s).wire = s.wire := rfl
@[simp] theorem beginSync_returned (s : State) : (beginSync s).returned = s.returned := rfl
@[simp] theorem beginSync_time (s : State) : (beginSync s).time = s.time := rfl
@[simp] theorem beginSync_env (s : State) : (beginSync s).env = s.env := rfl
@[simp] theorem beginSync_draws (s : State) : (beginSync s).draws = s.draws := rfl

/-! The boundary device's running on changes the device, its inputs and the draws only. -/

@[simp] theorem advance_phase (s : State) : (advance s).phase = s.phase := by unfold advance; split <;> rfl
@[simp] theorem advance_spd (s : State) : (advance s).spd = s.spd := by unfold advance; split <;> rfl
@[simp] theorem advance_pos (s : State) : (advance s).pos = s.pos := by unfold advance; split <;> rfl
@[simp] theorem advance_ren (s : State) : (advance s).ren = s.ren := by unfold advance; split <;> rfl
@[simp] theorem advance_enc (s : State) : (advance s).enc = s.enc := by unfold advance; split <;> rfl
@[simp] theorem advance_cfg (s : State) : (advance s).cfg = s.cfg := by unfold advance; split <;> rfl
@[simp] theorem advance_wire (s : State) : (advance s).wire = s.wire := by unfold advance; split <;> rfl
@[simp] theorem advance_returned (s : State) : (advance s).returned = s.returned := by unfold advance; split <;> rfl
@[simp] theorem advance_time (s : State) : (advance s).time = s.time := by unfold advance; split <;> rfl

theorem advance_listed (s : State) (seg : List BoundaryEvent) (rest : List (List BoundaryEvent)) (h : s.env = seg :: rest) :
    advance s = { s with bnd := seg.foldl (applyEvent s.cfg) s.bnd, env := rest } := by
  unfold advance; rw [h]

theorem advance_free (s : State) (h : s.env = []) :
    advance s = { s with
      bnd := (Config.freeSegment s.draws).foldl (applyEvent s.cfg) s.bnd, draws := s.draws + 1 } := by
  unfold advance; rw [h]

end Sys2Proof.Machine
end

