-- ==== Sys2Proof/Laws/Ops.lean ====
section
/-! SUPPORT. For each shared operation, once, everything it can do. -/

namespace Sys2Proof.Machine

/-! ### Loops -/

/-- What every pass of a loop keeps, the loop keeps. -/
theorem foldl_keeps {α β γ : Type} (P : β → γ) (f : β → α → β) (h : ∀ b a, P (f b a) = P b) :
    ∀ (l : List α) (b : β), P (l.foldl f b) = P b
  | [], _ => rfl
  | a :: l, b => by rw [List.foldl_cons, foldl_keeps P f h l (f b a), h]

/-- An invariant that every pass of a loop keeps holds after the loop. -/
theorem foldl_invariant {α β : Type} (P : β → Prop) (f : β → α → β) :
    ∀ (l : List α) (b : β), P b → (∀ b a, a ∈ l → P b → P (f b a)) → P (l.foldl f b)
  | [], _, hb, _ => hb
  | a :: l, b, hb, h =>
    foldl_invariant P f l (f b a) (h b a List.mem_cons_self hb) fun b' a' ha' => h b' a' (List.mem_cons_of_mem _ ha')

/-! ### Pixels -/

theorem clampIndex_eq_nearestPixel (i : Int) : clampIndex i = nearestPixel i := by
  unfold clampIndex nearestPixel
  split
  · omega
  · split <;> omega

theorem clampIndex_le (i : Int) : clampIndex i ≤ 53 := by unfold clampIndex; omega

theorem clampIndex_of_nat {n : Nat} (h : n ≤ 53) : clampIndex n = n := by unfold clampIndex; omega

/-- Writing a pixel: its four bytes read the channels, every other byte as before. -/
theorem read_writePixel (m : Memory) (i a : Nat) (p : Pixel) :
    (writePixel m i p).read a = if a / 4 = i then p.channel (a % 4) else m.read a := by
  unfold writePixel
  simp only [Memory.read_write]
  by_cases h : a / 4 = i
  · have h4 : a = 4 * i + a % 4 := by omega
    have : a % 4 = 0 ∨ a % 4 = 1 ∨ a % 4 = 2 ∨ a % 4 = 3 := by omega
    rcases this with h0 | h0 | h0 | h0 <;> rw [h0] at h4 <;> subst h4 <;>
      simp [show (4 * i + 1) / 4 = i by omega, show (4 * i + 2) / 4 = i by omega, show (4 * i + 3) / 4 = i by omega,
        Pixel.channel]
  · rw [if_neg h, if_neg (by omega), if_neg (by omega), if_neg (by omega), if_neg (by omega)]

theorem readPixel_writePixel (m : Memory) (i j : Nat) (p : Pixel) :
    readPixel (writePixel m i p) j = if j = i then p else readPixel m j := by
  unfold readPixel
  simp only [read_writePixel]
  have h1 : (4 * j + 1) / 4 = j := by omega
  have h2 : (4 * j + 2) / 4 = j := by omega
  have h3 : (4 * j + 3) / 4 = j := by omega
  have e1 : (4 * j + 1) % 4 = 1 := by omega
  have e2 : (4 * j + 2) % 4 = 2 := by omega
  have e3 : (4 * j + 3) % 4 = 3 := by omega
  have h0 : 4 * j / 4 = j := by omega
  have e0 : 4 * j % 4 = 0 := by omega
  rw [h0, h1, h2, h3, e0, e1, e2, e3]
  split <;> rfl

theorem wf_writePixel {m : Memory} (i : Nat) (p : Pixel) (h : m.wf = true) : (writePixel m i p).wf = true :=
  Memory.wf_write _ _ (Memory.wf_write _ _ (Memory.wf_write _ _ (Memory.wf_write _ _ h)))

theorem below_writePixel {m : Memory} {i : Nat} (p : Pixel) (hi : i < 54) (h : m.below frameBytes = true) :
    (writePixel m i p).below frameBytes = true :=
  have lt (k : Nat) (hk : k < 4) : 4 * i + k < frameBytes := by unfold frameBytes; omega
  Memory.below_write _ (lt 3 (by decide)) (Memory.below_write _ (lt 2 (by decide)) (Memory.below_write _
    (lt 1 (by decide)) (Memory.below_write _ (lt 0 (by decide)) h)))

/-- Buffers whose pixels agree read alike inside the 216 bytes. -/
theorem read_of_readPixel {m n : Memory} {a : Nat} (h : readPixel m (a / 4) = readPixel n (a / 4)) :
    m.read a = n.read a := by
  have h4 : a = 4 * (a / 4) + a % 4 := by omega
  simp only [readPixel, Pixel.mk.injEq] at h
  have : a % 4 = 0 ∨ a % 4 = 1 ∨ a % 4 = 2 ∨ a % 4 = 3 := by omega
  rcases this with h0 | h0 | h0 | h0 <;> rw [h0] at h4 <;> rw [h4]
  · exact h.1
  · exact h.2.1
  · exact h.2.2.1
  · exact h.2.2.2

/-- A loop that writes pixels in turn: the pixel of the last pass that writes an index, else as before. -/
theorem readPixel_writeLoop (f : Nat → Pixel) (j : Nat) :
    ∀ (n : Nat) (m : Memory), readPixel ((List.range n).foldl (fun m i => writePixel m i (f i)) m) j
      = if j < n then f j else readPixel m j
  | 0, m => by simp
  | n + 1, m => by
    rw [List.range_succ, List.foldl_append, List.foldl_cons, List.foldl_nil, readPixel_writePixel,
      readPixel_writeLoop f j n m]
    by_cases h : j = n
    · simp [h]
    · rw [if_neg h]
      by_cases hn : j < n
      · rw [if_pos hn, if_pos (by omega)]
      · rw [if_neg hn, if_neg (by omega)]

/-- CLEAR's buffer: pixels 0..53 zero, every other as before. -/
theorem readPixel_clearBuffer (m : Memory) (j : Nat) :
    readPixel (clearBuffer m) j = if j < 54 then { g := 0, r := 0, b := 0, w := 0 } else readPixel m j :=
  readPixel_writeLoop (fun _ => { g := 0, r := 0, b := 0, w := 0 }) j nPix m

theorem clearBuffer_keeps {m : Memory} (h : m.wf = true) (hb : m.below frameBytes = true) :
    (clearBuffer m).wf = true ∧ (clearBuffer m).below frameBytes = true :=
  foldl_invariant (fun m => Memory.wf m = true ∧ Memory.below frameBytes m = true) _ _ _ ⟨h, hb⟩
    fun _ i hi hm => ⟨wf_writePixel i _ hm.1, below_writePixel _ (by simpa using hi) hm.2⟩

/-- A half drawn twice, for the first `n` positions. -/
theorem readPixel_drawLoop (pix : Nat → Pixel) (j : Nat) :
    ∀ (n : Nat), n ≤ 27 → ∀ (m : Memory),
      readPixel ((List.range n).foldl
        (fun m (p : Nat) => setPixel (setPixel m p (pix p)) (nHalf + p : Nat) (pix p)) m) j
      = if j < n then pix j else if 27 ≤ j ∧ j < 27 + n then pix (j - 27) else readPixel m j
  | 0, _, m => by
    rw [List.range_zero, List.foldl_nil, if_neg (by omega), if_neg (by omega)]
  | n + 1, hn, m => by
    rw [List.range_succ, List.foldl_append, List.foldl_cons, List.foldl_nil]
    unfold setPixel
    rw [clampIndex_of_nat (n := n) (by omega), clampIndex_of_nat (n := nHalf + n) (by unfold nHalf; omega),
      readPixel_writePixel, readPixel_writePixel]
    have ih := readPixel_drawLoop pix j n (by omega) m
    unfold setPixel at ih
    rw [ih]
    unfold nHalf
    split_ifs <;> first | rfl | omega | (congr 1; omega)

/-- A render's buffer: position `p` in pixel `p` and in pixel `27 + p`, every pixel beyond 53 as before. -/
theorem readPixel_drawHalves (pix : Nat → Pixel) (m : Memory) (j : Nat) :
    readPixel (drawHalves pix m) j
      = if j < 27 then pix j else if j < 54 then pix (j - 27) else readPixel m j := by
  unfold drawHalves
  rw [readPixel_drawLoop pix j 27 le_rfl m]
  by_cases h : j < 27
  · rw [if_pos h, if_pos h]
  · rw [if_neg h, if_neg h]
    by_cases h' : j < 54
    · rw [if_pos h', if_pos (by omega)]
    · rw [if_neg h', if_neg (by omega)]

theorem drawHalves_keeps (pix : Nat → Pixel) {m : Memory} (h : m.wf = true) (hb : m.below frameBytes = true) :
    (drawHalves pix m).wf = true ∧ (drawHalves pix m).below frameBytes = true :=
  foldl_invariant (fun m => Memory.wf m = true ∧ Memory.below frameBytes m = true) _ _ _ ⟨h, hb⟩
    fun _ p _ hm =>
      have c (i : Int) : clampIndex i < 54 := by have := clampIndex_le i; omega
      ⟨wf_writePixel _ _ (wf_writePixel _ _ hm.1), below_writePixel _ (c _) (below_writePixel _ (c _) hm.2)⟩

/-! ### Configurations -/

/-- What a configuration's legality says, in plain numbers (00_scope.md R10). -/
theorem config_bounds (c : Config) :
    1 ≤ c.debounceTicks ∧ c.debounceTicks ≤ 300 ∧ 1 ≤ c.ticksPerRev ∧ c.speedNum < 2 ^ 32 ∧ 1 ≤ c.kDen ∧
      1 ≤ c.idleRateDen ∧ 1 ≤ c.idleAtten ∧ c.lut.length = 216 ∧ 80000000 ≤ c.tReset ∧
      c.duty0Cycles < c.duty1Cycles ∧ c.duty1Cycles < c.slotCycles ∧ 1 ≤ c.tClk ∧ 1 ≤ c.duty0Cycles ∧
      singleHump c.lut = true := by
  have h := c.isLegal
  simp only [Params.legal, Bool.and_eq_true, decide_eq_true_eq] at h
  obtain ⟨⟨⟨⟨⟨⟨⟨⟨⟨⟨⟨⟨⟨⟨⟨⟨⟨⟨⟨⟨h1, h2⟩, -⟩, h4⟩, -⟩, h6⟩, -⟩, h8⟩, -⟩, h10⟩, h11⟩, -⟩, -⟩, -⟩, h15⟩, h16⟩, h17⟩, h18⟩,
    h19⟩, h20⟩, h21⟩ := h
  exact ⟨h1, h2, h4, h6, h8, h10, h11, h15, h16, h17, h18, h19, h20, h21⟩

theorem dutyCycles_lt (c : Config) (bit : Bool) : dutyCycles c bit < c.slotCycles := by
  have := config_bounds c
  unfold dutyCycles
  split <;> omega

theorem dutyCycles_pos (c : Config) (bit : Bool) : 0 < dutyCycles c bit := by
  have := config_bounds c
  unfold dutyCycles
  split <;> omega

theorem tClk_pos (c : Config) : 0 < c.tClk := by have := config_bounds c; omega

/-- A bit's high time is its threshold in clock periods (40_serial_encoder.md R80). -/
theorem highTime_eq (c : Config) (bit : Bool) : highTime c bit = dutyCycles c bit * c.tClk := by
  unfold highTime dutyCycles
  split <;> rfl

theorem highTime_lt (c : Config) (bit : Bool) : highTime c bit < c.tSlot := by
  rw [highTime_eq]
  exact Nat.mul_lt_mul_of_pos_right (dutyCycles_lt c bit) (tClk_pos c)

theorem highTime_pos (c : Config) (bit : Bool) : 0 < highTime c bit := by
  rw [highTime_eq]
  exact Nat.mul_pos (dutyCycles_pos c bit) (tClk_pos c)

theorem tSlot_pos (c : Config) : 0 < c.tSlot := by have := highTime_lt c true; omega

theorem neverRises_pairwise : ∀ (l : List Byte), neverRises l = true → l.Pairwise (· ≥ ·)
  | [], _ => List.Pairwise.nil
  | [_], _ => by simp
  | a :: b :: rest, h => by
    simp only [neverRises, Bool.and_eq_true, decide_eq_true_eq] at h
    have ih := neverRises_pairwise (b :: rest) h.2
    refine List.pairwise_cons.mpr ⟨fun x hx => ?_, ih⟩
    rcases List.mem_cons.mp hx with rfl | hx
    · exact h.1
    · exact BitVec.le_trans ((List.pairwise_cons.mp ih).1 x hx) h.1

/-- A table that rises and then falls has a crest: no entry up to it is below an earlier one, none after it above one. -/
theorem risesThenFalls_crest : ∀ (l : List Byte), risesThenFalls l = true →
    ∃ up down, l = up ++ down ∧ up.Pairwise (· ≤ ·) ∧ down.Pairwise (· ≥ ·)
  | [], _ => ⟨[], [], rfl, List.Pairwise.nil, List.Pairwise.nil⟩
  | [a], _ => ⟨[a], [], rfl, by simp, List.Pairwise.nil⟩
  | a :: b :: rest, h => by
    unfold risesThenFalls at h
    split at h
    case isTrue hab =>
      obtain ⟨up, down, hl, hu, hd⟩ := risesThenFalls_crest (b :: rest) h
      cases up with
      | nil => exact ⟨[a], down, by rw [hl]; rfl, by simp, hd⟩
      | cons c up =>
        obtain ⟨rfl, -⟩ := List.cons.inj hl
        refine ⟨a :: b :: up, down, by rw [hl]; rfl, List.pairwise_cons.mpr ⟨fun x hx => ?_, hu⟩, hd⟩
        rcases List.mem_cons.mp hx with rfl | hx
        · exact hab
        · exact BitVec.le_trans hab ((List.pairwise_cons.mp hu).1 x hx)
    case isFalse => exact ⟨[a], b :: rest, rfl, by simp, neverRises_pairwise _ h⟩

/-! ### The slot timer -/

/-- The slot timer runs on modulo T_SLOT. -/
theorem sinceTick_runSlot (c : Config) (ps : Nat) (t : SlotTimer) :
    (runSlot c ps t).sinceTick c = (t.sinceTick c + ps) % c.tSlot := by
  have h : t.count * c.tClk + t.within + ps = c.tClk * t.count + (t.within + ps) := by rw [Nat.mul_comm]; omega
  unfold SlotTimer.sinceTick runSlot Params.tSlot
  rw [h, Nat.mul_comm c.slotCycles, Nat.mod_mul, Nat.mul_add_mod, Nat.mul_add_div (tClk_pos c), Nat.mul_comm, Nat.add_comm]

theorem runSlot_within (c : Config) (ps : Nat) (t : SlotTimer) : (runSlot c ps t).within < c.tClk :=
  Nat.mod_lt _ (tClk_pos c)

/-- A slot timer that has run on to a multiple of T_SLOT stands at its tick. -/
theorem runSlot_eq_tick {c : Config} {ps : Nat} {t : SlotTimer} (h : (t.sinceTick c + ps) % c.tSlot = 0) :
    runSlot c ps t = { count := 0, within := 0 } := by
  rw [← sinceTick_runSlot] at h
  have hk := tClk_pos c
  have hc : (runSlot c ps t).count = 0 := by
    rcases Nat.eq_zero_or_pos (runSlot c ps t).count with h0 | h0
    · exact h0
    · have := Nat.mul_pos h0 hk
      unfold SlotTimer.sinceTick at h
      omega
  have hw : (runSlot c ps t).within = 0 := by unfold SlotTimer.sinceTick at h; omega
  exact (SlotTimer.mk.injEq ..).mpr ⟨hc, hw⟩

/-- From its tick the slot timer has counted a bit's threshold when the bit's high time is over. -/
theorem runSlot_highTime (c : Config) (bit : Bool) :
    runSlot c (highTime c bit) { count := 0, within := 0 } = { count := dutyCycles c bit, within := 0 } := by
  have hk := tClk_pos c
  simp [runSlot, highTime_eq, Nat.mul_div_cancel _ hk, Nat.mod_eq_of_lt (dutyCycles_lt c bit)]

/-- `waitSlotBoundary()`, in full. -/
theorem waitBoundary_eq (s : State) :
    waitBoundary s = { s with
      time := s.time + toBoundary s, bnd := { s.bnd with slot := { count := 0, within := 0 } } } := by
  unfold waitBoundary passTime
  rw [runSlot_eq_tick]
  have h := Nat.mod_lt (s.bnd.slot.sinceTick s.cfg) (tSlot_pos s.cfg)
  have e := Nat.div_add_mod (s.bnd.slot.sinceTick s.cfg) s.cfg.tSlot
  unfold toBoundary
  generalize s.bnd.slot.sinceTick s.cfg = x at *
  rw [show x + (s.cfg.tSlot - x % s.cfg.tSlot) = s.cfg.tSlot * (x / s.cfg.tSlot) + s.cfg.tSlot by omega]
  simp

@[simp] theorem waitBoundary_bnd (s : State) :
    (waitBoundary s).bnd = { s.bnd with slot := { count := 0, within := 0 } } := by rw [waitBoundary_eq]

/-- SETTLE, in full. -/
theorem settle_eq (s : State) :
    settle s = { s with
      phase := 1, time := s.time + s.cfg.tSettle * 1000000
      bnd := { s.bnd with slot := runSlot s.cfg (s.cfg.tSettle * 1000000) s.bnd.slot } } := by
  unfold settle delayFor passTime goPhase
  rfl

/-! ### Numbers -/

theorem period_toNat (ts lastTs : U16) : (period ts lastTs).toNat = (ts.toNat + 65536 - lastTs.toNat) % 65536 := by
  unfold period
  rw [BitVec.toNat_sub]
  have := lastTs.isLt
  congr 1
  omega

/-- Where a period is not 0 the instantaneous speed is the truncated quotient (41_speed_estimator.md R90). -/
theorem instSpeed_toNat (c : Config) {per : U16} (h : per.toNat ≠ 0) :
    (instSpeed c per).toNat = c.speedNum / (per.toNat * c.ticksPerRev) := by
  unfold instSpeed
  rw [if_neg (by rintro rfl; exact h rfl), BitVec.toNat_ofNat]
  exact Nat.mod_eq_of_lt (lt_of_le_of_lt (Nat.div_le_self _ _) (config_bounds c).2.2.2.1)

/-- The filter's sum never overflows (41_speed_estimator.md R91, R97 (a)). -/
theorem smooth_toNat (speed inst : U32) :
    (smooth speed inst).toNat = (speed.toNat - speed.toNat / 16) + inst.toNat / 16 := by
  unfold smooth ewmaShift
  rw [BitVec.toNat_ofNat]
  have h1 := speed.isLt
  have h2 := inst.isLt
  apply Nat.mod_eq_of_lt
  omega

theorem wrapOffset_toNat (offset : U32) (inc : Nat) : (wrapOffset offset inc).toNat = (offset.toNat + inc) % 2 ^ 31 := by
  unfold wrapOffset posModulus
  rw [BitVec.toNat_ofNat]
  exact Nat.mod_eq_of_lt (lt_trans (Nat.mod_lt _ (by norm_num)) (by norm_num))

theorem saturatingSince_toNat (since : U32) (e : U16) :
    (saturatingSince since e).toNat = min (2 ^ 32 - 1) (since.toNat + e.toNat) := by
  unfold saturatingSince
  rw [BitVec.toNat_ofNat]
  apply Nat.mod_eq_of_lt
  omega

/-! ### Symbols -/

theorem toBoundary_pos (s : State) : 0 < toBoundary s ∧ toBoundary s ≤ s.cfg.tSlot := by
  have := Nat.mod_lt (s.bnd.slot.sinceTick s.cfg) (tSlot_pos s.cfg)
  unfold toBoundary
  omega

/-- One symbol, in full. -/
theorem sendSym_eq (bit : Bool) (s : State) :
    sendSym bit s = { s with
      wire := symbol s.cfg bit :: s.wire
      time := s.time + toBoundary s + highTime s.cfg bit
      bnd := { s.bnd with slot := { count := dutyCycles s.cfg bit, within := 0 } }
      enc := { s.enc with
        dout := false, dutySel := bit, encState := if s.enc.encState = .sync then .shift else s.enc.encState } } := by
  simp [sendSym, followCompare, emit, driveLine, passTime, loadDuty, waitBoundary_eq, runSlot_highTime, compareOutput]

/-- What a transmission leaves alone: everything but the wire, the time, the encoder and the slot timer. -/
def SameCore (s t : State) : Prop :=
  t.phase = s.phase ∧ t.spd = s.spd ∧ t.pos = s.pos ∧ t.ren = s.ren ∧ t.cfg = s.cfg ∧ t.returned = s.returned ∧
    t.env = s.env ∧ t.draws = s.draws ∧ t.bnd = { s.bnd with slot := t.bnd.slot }

theorem SameCore.refl (s : State) : SameCore s s := ⟨rfl, rfl, rfl, rfl, rfl, rfl, rfl, rfl, rfl⟩

theorem SameCore.trans {s t u : State} (h : SameCore s t) (k : SameCore t u) : SameCore s u := by
  obtain ⟨h1, h2, h3, h4, h5, h6, h7, h8, h9⟩ := h
  obtain ⟨k1, k2, k3, k4, k5, k6, k7, k8, k9⟩ := k
  exact ⟨k1.trans h1, k2.trans h2, k3.trans h3, k4.trans h4, k5.trans h5, k6.trans h6, k7.trans h7, k8.trans h8,
    by rw [k9, h9]⟩

theorem sendSym_sameCore (bit : Bool) (s : State) : SameCore s (sendSym bit s) := by
  rw [sendSym_eq]; exact ⟨rfl, rfl, rfl, rfl, rfl, rfl, rfl, rfl, rfl⟩

theorem atBit_sameCore (k : Nat) (s : State) : SameCore s (atBit k s) := ⟨rfl, rfl, rfl, rfl, rfl, rfl, rfl, rfl, rfl⟩

theorem atChannel_sameCore (k : Nat) (s : State) : SameCore s (atChannel k s) :=
  ⟨rfl, rfl, rfl, rfl, rfl, rfl, rfl, rfl, rfl⟩

theorem atPixel_sameCore (k : Nat) (s : State) : SameCore s (atPixel k s) :=
  ⟨rfl, rfl, rfl, rfl, rfl, rfl, rfl, rfl, rfl⟩

theorem sendByte_sameCore (v : Byte) (s : State) : SameCore s (sendByte v s) :=
  foldl_invariant (SameCore s) _ _ _ (SameCore.refl s) fun _ k _ h =>
    (h.trans (atBit_sameCore k _)).trans (sendSym_sameCore _ _)

theorem sendPixel_sameCore (p : Pixel) (s : State) : SameCore s (sendPixel p s) :=
  ((((((((atChannel_sameCore 0 s).trans (sendByte_sameCore _ _)).trans (atChannel_sameCore 1 _)).trans
    (sendByte_sameCore _ _)).trans (atChannel_sameCore 2 _)).trans (sendByte_sameCore _ _)).trans
      (atChannel_sameCore 3 _)).trans (sendByte_sameCore _ _))

theorem sendPixelAt_sameCore (i : Nat) (s : State) : SameCore s (sendPixelAt i s) :=
  (atPixel_sameCore i s).trans (sendPixel_sameCore _ _)

theorem beginSync_sameCore (s : State) : SameCore s (beginSync s) := ⟨rfl, rfl, rfl, rfl, rfl, rfl, rfl, rfl, rfl⟩

theorem endTransmit_sameCore (s : State) : SameCore s (endTransmit s) := ⟨rfl, rfl, rfl, rfl, rfl, rfl, rfl, rfl, rfl⟩

/-- The rest of a slot ends at the tick. -/
theorem runSlot_restOfSlot (s : State) :
    runSlot s.cfg (restOfSlot s) s.bnd.slot = { count := 0, within := 0 } := by
  apply runSlot_eq_tick
  have h := Nat.mod_lt (s.bnd.slot.sinceTick s.cfg) (tSlot_pos s.cfg)
  have e := Nat.div_add_mod (s.bnd.slot.sinceTick s.cfg) s.cfg.tSlot
  unfold restOfSlot toBoundary
  generalize s.bnd.slot.sinceTick s.cfg = x at *
  rw [Nat.add_mod_mod, show x + (s.cfg.tSlot - x % s.cfg.tSlot) = s.cfg.tSlot * (x / s.cfg.tSlot) + s.cfg.tSlot by omega]
  simp

/-- The latch interval, in full. -/
theorem holdLatch_eq (s : State) :
    holdLatch s = { s with
      wire := .low s.cfg.tReset :: s.wire
      time := s.time + restOfSlot s + s.cfg.tReset
      bnd := { s.bnd with slot := runSlot s.cfg s.cfg.tReset { count := 0, within := 0 } }
      enc := { s.enc with dout := false, encState := .idle } } := by
  have h : restOfSlot (driveLine false (toEncState .latch s)) = restOfSlot s := rfl
  simp [holdLatch, toEncState, emit, passTime, driveLine] at h ⊢
  rw [h, runSlot_restOfSlot]
  exact ⟨rfl, rfl⟩

theorem holdLatch_sameCore (s : State) : SameCore s (holdLatch s) := by
  rw [holdLatch_eq]; exact ⟨rfl, rfl, rfl, rfl, rfl, rfl, rfl, rfl, rfl⟩

/-- TRANSMIT up to its last line leaves the core alone but for the encoder and the line. -/
theorem transmit_sameCore (s : State) : ∃ u, SameCore s u ∧ transmit s = goPhase 8 u := by
  have h : SameCore s ((List.range nPix).foldl (fun s i => sendPixelAt i s) (beginSync s)) :=
    foldl_invariant (SameCore s) _ _ _ (beginSync_sameCore s) fun _ i _ h => h.trans (sendPixelAt_sameCore i _)
  exact ⟨_, (h.trans (holdLatch_sameCore _)).trans (endTransmit_sameCore _), rfl⟩

end Sys2Proof.Machine
end

