-- ==== Sys2Proof/Laws/PerInstr.lean ====
section
/-! SUPPORT. Statements made instruction by instruction. -/

namespace Sys2Proof.Laws.EncodingFits

/-- The bits of a well-formed operation fit its channel, so that its encoding has no bit set above the channel's width
(30_encoding.md R55, R65, R66). -/
def Statement (i : Instr) : Prop := i.wellFormed = true → (encodeBits i).2 < 2 ^ i.channel.width

theorem sym0 : Statement .sym0 := fun _ => by decide

theorem sym1 : Statement .sym1 := fun _ => by decide

theorem byte (v : Byte) : Statement (.byte v) := fun _ => v.isLt

theorem pixelAt (i : BitVec 6) : Statement (.pixelAt i) := fun h => Bool.noConfusion h

theorem pixel (g r b w : Byte) : Statement (.pixel g r b w) := by
  intro _
  have hg := g.isLt
  have hr := r.isLt
  have hb := b.isLt
  have hw := w.isLt
  simp only [Instr.channel, encodeBits, Channel.width]
  omega

theorem latch : Statement .latch := fun _ => by decide

theorem capNone : Statement .capNone := fun _ => by decide

theorem capReject : Statement .capReject := fun _ => by decide

theorem capAccept : Statement .capAccept := fun _ => by decide

theorem ovfNone : Statement .ovfNone := fun _ => by decide

theorem ovfTick : Statement .ovfTick := fun _ => by decide

theorem ovfTimeout : Statement .ovfTimeout := fun _ => by decide

theorem elapsed : Statement .elapsed := fun _ => by decide

theorem advRun : Statement .advRun := fun _ => by decide

theorem advHold : Statement .advHold := fun _ => by decide

theorem clear : Statement .clear := fun _ => by decide

theorem renderActive : Statement .renderActive := fun _ => by decide

theorem renderIdle : Statement .renderIdle := fun _ => by decide

theorem transmit : Statement .transmit := fun _ => by decide

theorem settle : Statement .settle := fun _ => by decide

theorem frame : Statement .frame := fun _ => by decide

theorem setPix (i : Int) (g r b w : Byte) : Statement (.setPix i g r b w) := by
  intro _
  have hi := (BitVec.ofInt 8 i).isLt
  have hg := g.isLt
  have hr := r.isLt
  have hb := b.isLt
  have hw := w.isLt
  simp only [Instr.channel, encodeBits, Channel.width]
  omega

theorem getPix (i : Int) : Statement (.getPix i) := fun _ => (BitVec.ofInt 8 i).isLt

theorem lutW (j : Int) : Statement (.lutW j) := fun _ => (BitVec.ofInt 11 j).isLt

theorem readCaptureEvent : Statement .readCaptureEvent := fun _ => by decide

theorem readOverflowEvent : Statement .readOverflowEvent := fun _ => by decide

theorem currentCounterValue : Statement .currentCounterValue := fun _ => by decide

theorem setOutputLevel (l : Bool) : Statement (.setOutputLevel l) := by
  intro _
  cases l <;> decide

theorem waitSlotBoundary : Statement .waitSlotBoundary := fun _ => by decide

theorem delay (us : Nat) : Statement (.delay us) := fun _ => Nat.mod_lt us (by decide)

end Sys2Proof.Laws.EncodingFits
end

