-- ==== Sys2Proof/Laws/Step.lean ====
section
/-! SUPPORT. What a step can do, once: the operation each phase fetches, and the inversion of a step. -/

namespace Sys2Proof.Machine

/-- The dispatch vector of a phase and the five conditions (30_encoding.md R63). -/
def vectorOf (phase : BitVec 4) (cv ac ov ti id : Bool) : BitVec 9 :=
  phase ++ BitVec.ofBool (phase == 1 && cv) ++ BitVec.ofBool (phase == 1 && ac) ++ BitVec.ofBool (phase == 2 && ov)
    ++ BitVec.ofBool (phase == 2 && ti) ++ BitVec.ofBool id

theorem dispatchVector_eq (s : State) :
    dispatchVector s = vectorOf s.phase (capValid s) (accept s) (ovf s) (timeout s) (idle s) := rfl

theorem decode_dv (v : BitVec 9) : decode .dv (bytesOfNumber 2 v.toNat) = decodeDv v := by
  have hv := v.isLt
  have hn : numberOfBytes (bytesOfNumber 2 v.toNat) = v.toNat := by
    simp only [bytesOfNumber, numberOfBytes, BitVec.toNat_ofNat]
    omega
  unfold decode
  rw [if_neg (by decide +revert), hn, if_neg (by simp [Channel.width]; omega)]
  simp [decodeBits]

theorem fetch_eq (s : State) : fetch s = decodeDv (dispatchVector s) := decode_dv _

/-- The operation of each phase, selected by the qualifiers (30_encoding.md R64). -/
theorem decodeDv_vectorOf (phase : BitVec 4) (cv ac ov ti id : Bool) (hac : ac = true → cv = true) :
    decodeDv (vectorOf phase cv ac ov ti id) =
      if phase = 1 then .ok (if cv then (if ac then .capAccept else .capReject) else .capNone)
      else if phase = 2 then .ok (if ov then (if ti then .ovfTimeout else .ovfTick) else .ovfNone)
      else if phase = 3 then .ok .elapsed
      else if phase = 4 then .ok (if id then .advHold else .advRun)
      else if phase = 5 then .ok .clear
      else if phase = 6 then .ok (if id then .renderIdle else .renderActive)
      else if phase = 7 then .ok .transmit
      else if phase = 8 then .ok .settle
      else .error .noSuchPhase := by
  revert phase cv ac ov ti id
  decide +kernel

theorem accept_capValid (s : State) : accept s = true → capValid s = true := by
  unfold accept; simp only [Bool.and_eq_true]; exact fun h => h.1

/-- What the sequencer fetches in a state. -/
theorem fetch_cases (s : State) :
    fetch s =
      if s.phase = 1 then .ok (if capValid s then (if accept s then .capAccept else .capReject) else .capNone)
      else if s.phase = 2 then .ok (if ovf s then (if timeout s then .ovfTimeout else .ovfTick) else .ovfNone)
      else if s.phase = 3 then .ok .elapsed
      else if s.phase = 4 then .ok (if idle s then .advHold else .advRun)
      else if s.phase = 5 then .ok .clear
      else if s.phase = 6 then .ok (if idle s then .renderIdle else .renderActive)
      else if s.phase = 7 then .ok .transmit
      else if s.phase = 8 then .ok .settle
      else .error .noSuchPhase := by
  rw [fetch_eq, dispatchVector_eq, decodeDv_vectorOf _ _ _ _ _ _ (accept_capValid s)]

/-- A step that answers a next state did the operation of its phase, and no other: the inversion of a step. -/
theorem step_cases {s t : State} (h : step s = .next t) :
    (s.phase = 1 ∧ t = pollCapture (advance s)) ∨ (s.phase = 2 ∧ t = pollOverflow (advance s)) ∨
    (s.phase = 3 ∧ t = elapsed (advance s)) ∨ (s.phase = 4 ∧ t = integrate (advance s)) ∨
    (s.phase = 5 ∧ t = clear (advance s)) ∨ (s.phase = 6 ∧ t = render (advance s)) ∨
    (s.phase = 7 ∧ t = transmit (advance s)) ∨ (s.phase = 8 ∧ t = settle (advance s)) := by
  unfold step at h
  rw [fetch_cases] at h
  simp only [advance_phase] at h
  have next {u : State} {x : Result} (hx : x = .next u) (ht : x = .next t) : t = u := by
    rw [hx] at ht; injection ht with ht; exact ht.symm
  by_cases h1 : s.phase = 1
  · left; refine ⟨h1, ?_⟩
    simp only [h1, if_true] at h
    unfold pollCapture
    split_ifs at h ⊢ <;> exact next rfl h
  rw [if_neg h1] at h; right
  by_cases h2 : s.phase = 2
  · left; refine ⟨h2, ?_⟩
    simp only [h2, if_true] at h
    unfold pollOverflow
    split_ifs at h ⊢ <;> exact next rfl h
  rw [if_neg h2] at h; right
  by_cases h3 : s.phase = 3
  · left; rw [if_pos h3] at h; exact ⟨h3, next rfl h⟩
  rw [if_neg h3] at h; right
  by_cases h4 : s.phase = 4
  · left; refine ⟨h4, ?_⟩
    rw [if_pos h4] at h
    unfold integrate
    split_ifs at h ⊢ <;> exact next rfl h
  rw [if_neg h4] at h; right
  by_cases h5 : s.phase = 5
  · left; rw [if_pos h5] at h; exact ⟨h5, next rfl h⟩
  rw [if_neg h5] at h; right
  by_cases h6 : s.phase = 6
  · left; refine ⟨h6, ?_⟩
    rw [if_pos h6] at h
    unfold render
    split_ifs at h ⊢ <;> exact next rfl h
  rw [if_neg h6] at h; right
  by_cases h7 : s.phase = 7
  · left; rw [if_pos h7] at h; exact ⟨h7, next rfl h⟩
  rw [if_neg h7] at h; right
  by_cases h8 : s.phase = 8
  · rw [if_pos h8] at h; exact ⟨h8, next rfl h⟩
  · rw [if_neg h8] at h
    exact absurd h (by simp)

end Sys2Proof.Machine
end

