-- ==== Sys2Proof/Laws/Wire.lean ====
section
/-! SUPPORT. What the encoder's shared operations put on the wire, when, and what they leave in its registers: once for
a symbol, a byte and a pixel. -/

namespace Sys2Proof.Machine

/-- The time of the next slot boundary. Symbols move it on by whole slots. -/
def nextBoundary (s : State) : Nat := s.time + toBoundary s

/-- The encoder's state after a symbol: shifting, if it was waiting for the first boundary. -/
def afterBoundary (e : EncState) : EncState := if e = .sync then .shift else e

theorem afterBoundary_idem (e : EncState) : afterBoundary (afterBoundary e) = afterBoundary e := by
  cases e <;> decide

theorem sendSym_wire (bit : Bool) (s : State) : (sendSym bit s).wire = symbol s.cfg bit :: s.wire := by rw [sendSym_eq]

theorem sendSym_enc (bit : Bool) (s : State) :
    (sendSym bit s).enc = { s.enc with dout := false, dutySel := bit, encState := afterBoundary s.enc.encState } := by
  rw [sendSym_eq]; rfl

theorem sendSym_nextBoundary (bit : Bool) (s : State) :
    nextBoundary (sendSym bit s) = nextBoundary s + s.cfg.tSlot := by
  have h := highTime_lt s.cfg bit
  have hm : (dutyCycles s.cfg bit * s.cfg.tClk + 0) % s.cfg.tSlot = highTime s.cfg bit := by
    rw [Nat.add_zero, ← highTime_eq]
    exact Nat.mod_eq_of_lt h
  rw [sendSym_eq]
  simp only [nextBoundary, toBoundary, SlotTimer.sinceTick, hm]
  omega

/-- After a symbol the rest of its slot is still to come, and ends at the next boundary. -/
theorem sendSym_restOfSlot (bit : Bool) (s : State) :
    restOfSlot (sendSym bit s) = toBoundary (sendSym bit s) := by
  have h := highTime_lt s.cfg bit
  have hp := highTime_pos s.cfg bit
  have hm : (dutyCycles s.cfg bit * s.cfg.tClk + 0) % s.cfg.tSlot = highTime s.cfg bit := by
    rw [Nat.add_zero, ← highTime_eq]
    exact Nat.mod_eq_of_lt h
  unfold restOfSlot
  apply Nat.mod_eq_of_lt
  rw [sendSym_eq]
  simp only [toBoundary, SlotTimer.sinceTick, hm]
  omega

/-- A run of symbols with the bit counter set before each: what the loop of BYTE does for any bit indices. -/
theorem sendBits (v : Byte) :
    ∀ (ks : List Nat) (s : State),
      let t := ks.foldl (fun s k => sendSym (v.getLsbD k) (atBit k s)) s
      t.wire = (ks.map fun k => symbol s.cfg (v.getLsbD k)).reverse ++ s.wire ∧
        nextBoundary t = nextBoundary s + ks.length * s.cfg.tSlot ∧
        (∀ k, ks.getLast? = some k → t.enc = { s.enc with
          bitIdx := BitVec.ofNat 3 k, dout := false, dutySel := v.getLsbD k
          encState := afterBoundary s.enc.encState })
  | [], s => ⟨rfl, by simp, by simp⟩
  | k :: ks, s => by
    have hcfg : (sendSym (v.getLsbD k) (atBit k s)).cfg = s.cfg := (sendSym_sameCore _ _).2.2.2.2.1
    have hb : nextBoundary (sendSym (v.getLsbD k) (atBit k s)) = nextBoundary s + s.cfg.tSlot :=
      sendSym_nextBoundary _ _
    have hw : (sendSym (v.getLsbD k) (atBit k s)).wire = symbol s.cfg (v.getLsbD k) :: s.wire := sendSym_wire _ _
    have he := sendSym_enc (v.getLsbD k) (atBit k s)
    obtain ⟨h1, h2, h3⟩ := sendBits v ks (sendSym (v.getLsbD k) (atBit k s))
    simp only [List.foldl_cons]
    refine ⟨?_, ?_, ?_⟩
    · rw [h1, hw, hcfg]; simp
    · rw [h2, hb, hcfg, List.length_cons, Nat.add_mul, Nat.one_mul]; omega
    · intro j hj
      cases ks with
      | nil => cases hj; simp only [List.foldl_nil]; rw [he]; rfl
      | cons k' ks =>
        rw [h3 j (by simpa using hj), he]
        simp [atBit, afterBoundary_idem]

theorem sendByte_wire (v : Byte) (s : State) :
    (sendByte v s).wire = (bitOrder.map fun k => symbol s.cfg (v.getLsbD k)).reverse ++ s.wire :=
  (sendBits v bitOrder s).1

theorem sendByte_nextBoundary (v : Byte) (s : State) :
    nextBoundary (sendByte v s) = nextBoundary s + 8 * s.cfg.tSlot := (sendBits v bitOrder s).2.1

theorem sendByte_restOfSlot (v : Byte) (s : State) : restOfSlot (sendByte v s) = toBoundary (sendByte v s) :=
  sendSym_restOfSlot _ _

theorem sendByte_enc (v : Byte) (s : State) :
    (sendByte v s).enc = { s.enc with
      bitIdx := 0, dout := false, dutySel := v.getLsbD 0, encState := afterBoundary s.enc.encState } :=
  (sendBits v bitOrder s).2.2 0 rfl

theorem sendByte_cfg (v : Byte) (s : State) : (sendByte v s).cfg = s.cfg := (sendByte_sameCore v s).2.2.2.2.1

/-- The symbols of a pixel in time order: its four bytes, green first, each most significant bit first. -/
def pixelSymbols (cfg : Config) (p : Pixel) : List WireEvent :=
  [p.g, p.r, p.b, p.w].flatMap fun v => bitOrder.map fun k => symbol cfg (v.getLsbD k)

theorem sendPixel_wire (p : Pixel) (s : State) :
    (sendPixel p s).wire = (pixelSymbols s.cfg p).reverse ++ s.wire := by
  simp [sendPixel, pixelSymbols, sendByte_wire, sendByte_cfg, atChannel]

theorem sendPixel_nextBoundary (p : Pixel) (s : State) :
    nextBoundary (sendPixel p s) = nextBoundary s + 32 * s.cfg.tSlot := by
  have h (k : Nat) (s : State) : nextBoundary (atChannel k s) = nextBoundary s := rfl
  have c (k : Nat) (s : State) : (atChannel k s).cfg = s.cfg := rfl
  simp only [sendPixel, sendByte_nextBoundary, sendByte_cfg, h, c]
  omega

theorem sendPixel_restOfSlot (p : Pixel) (s : State) : restOfSlot (sendPixel p s) = toBoundary (sendPixel p s) :=
  sendByte_restOfSlot _ _

theorem sendPixel_enc (p : Pixel) (s : State) :
    (sendPixel p s).enc = { s.enc with
      chIdx := 3, bitIdx := 0, dout := false, dutySel := p.w.getLsbD 0, encState := afterBoundary s.enc.encState } := by
  have h (k : Nat) (s : State) : (atChannel k s).enc = { s.enc with chIdx := BitVec.ofNat 2 k } := rfl
  simp only [sendPixel, sendByte_enc, h, afterBoundary_idem]
  rfl

theorem sendPixel_cfg (p : Pixel) (s : State) : (sendPixel p s).cfg = s.cfg := (sendPixel_sameCore p s).2.2.2.2.1

end Sys2Proof.Machine
end

