-- ==== Sys2Proof/Tests/Slice0.lean ====
section
/-! SUPPORT. The model's own tests. Expected results are those of spec/95_test_vectors.md and of the worked examples of
the rules, under the reference configuration; the words are written out from the tables of 30_encoding.md. Each witness
shows a state that meets the hypotheses of the obligation it is named after. -/

namespace Sys2Proof.Tests

set_option Elab.async false

open Sys2Proof.Machine

/-! ## Small states -/

/-- The reset state in a phase, with a quiet boundary device before the next two phases. -/
def quiet (p : BitVec 4) : State := { State.reset with phase := p, env := [[], []] }

/-- A state with SPD registers and a pending capture. -/
def captured (speed : U32) (lastTs : U16) (since : U32) (mode : Mode) (idleTime : U32) (ts : U16) : State :=
  { quiet 1 with
    spd := { speed := speed, lastTs := lastTs, since := since, mode := mode, capSeen := false }
    ren := { idleTime := idleTime, pb := [] }
    bnd := { State.reset.bnd with capFlag := true, capLatch := ts } }

/-- A state with SPD registers and a pending overflow. -/
def wrapped (capSeen : Bool) (mode : Mode) (since : U32) : State :=
  { quiet 2 with
    spd := { speed := if mode = .idle then 0 else 4321, lastTs := 7, since := since, mode := mode, capSeen := capSeen }
    ren := { idleTime := 99, pb := [] }
    bnd := { State.reset.bnd with ovfFlag := true } }

/-- A state before ELAPSED. -/
def counting (prevNow now : U16) (since : U32) : State :=
  { quiet 3 with
    spd := { State.reset.spd with since := since }
    pos := { State.reset.pos with prevNow := prevNow }
    bnd := { State.reset.bnd with cnt := now } }

/-- A state before ADV.RUN. -/
def moving (elapsed : U16) (speed : U32) (offset : U32) : State :=
  { quiet 4 with
    spd := { State.reset.spd with speed := speed }
    pos := { offset := offset, prevNow := 0, elapsed := elapsed } }

/-- A state in Idle. -/
def idling (p : BitVec 4) (idleTime : U32) (elapsed : U16) : State :=
  { quiet p with
    spd := { State.reset.spd with mode := .idle }
    pos := { State.reset.pos with elapsed := elapsed, offset := 23153382 }
    ren := { idleTime := idleTime, pb := [] } }

/-- A state in Active with a position. -/
def scrolling (offset : U32) : State := { quiet 6 with pos := { State.reset.pos with offset := offset } }

/-- One pixel set, the frame of program P1. -/
def onePixel : State :=
  { quiet 7 with ren := { idleTime := 0, pb := writePixel [] 0 { g := 0xB0, r := 0x12, b := 0, w := 0xFF } } }

/-- The state an operation answers, or the state itself where it answers none. -/
def after (i : Instr) (s : State) : State :=
  match exec i s with
  | .next t => t
  | _ => s

/-- The state after one step, or the state itself where there is none. -/
def stepped (s : State) : State :=
  match step s with
  | .next t => t
  | _ => s

/-- A step has a next state. -/
def goesOn (s : State) : Bool :=
  match step s with
  | .next _ => true
  | _ => false

/-- A step is the fault of a phase. -/
def faultsAt (s : State) (p : BitVec 4) : Bool :=
  match step s with
  | .fault f => f == .illegalPhase p
  | _ => false

theorem next_of_goesOn {s : State} (h : goesOn s = true) : step s = .next (stepped s) := by
  unfold goesOn at h
  unfold stepped
  split at h <;> simp_all

/-- The classes of the newest symbols, the oldest of them first: L long, S short. -/
def classes (n : Nat) (s : State) : List Char :=
  (s.wire.take n).reverse.map fun e => if receivedBit s.cfg e then 'L' else 'S'

/-- The channel values of pixels 0..26. -/
def half (f : Pixel → Byte) (s : State) : List Nat := (List.range 27).map fun p => (f (readPixel s.ren.pb p)).toNat

/-! ## WellFormed: each check refuses an ill-formed operation (30_encoding.md R65, R66) -/

theorem test_wellFormed_pixel_index :
    (Instr.setPix 128 0 0 0 0).wellFormed = false ∧ (Instr.setPix (-129) 0 0 0 0).wellFormed = false ∧
      (Instr.getPix 128).wellFormed = false ∧ (Instr.getPix (-129)).wellFormed = false ∧
      (Instr.setPix (-128) 0 0 0 0).wellFormed = true ∧ (Instr.getPix 127).wellFormed = true := by decide

theorem test_wellFormed_table_index :
    (Instr.lutW 1024).wellFormed = false ∧ (Instr.lutW (-1025)).wellFormed = false ∧
      (Instr.lutW 1023).wellFormed = true ∧ (Instr.lutW (-1024)).wellFormed = true := by decide

/-- PIXEL's index has no wire format of its own. -/
theorem test_wellFormed_pixelAt :
    (Instr.pixelAt 0).wellFormed = false ∧ (Instr.pixel 0 0 0 0).wellFormed = true := by decide

theorem test_wellFormed_delay :
    (Instr.delay 65536).wellFormed = false ∧ (Instr.delay 65535).wellFormed = true := by decide

/-! ## Decoding: the words of 30_encoding.md R56 to R66, the dispatch vectors in the bits of R63 -/

theorem test_decode_wire_formats :
    decode .sym [0b0] = .ok .sym0 ∧ decode .sym [0b1] = .ok .sym1 ∧
      decode .byte [0b10110000] = .ok (.byte 176) ∧
      -- g 10110000, r 00010010, b 00000000, w 11111111, the most significant byte last in memory order
      decode .pixel [0b11111111, 0b00000000, 0b00010010, 0b10110000] = .ok (.pixel 176 18 0 255) ∧
      decode .latch [] = .ok .latch := by decide +kernel

-- DV = phase(4) cap_valid accept ovf timeout idle; the byte above bit 7 carries bit 8.
theorem test_decode_capture_phase :
    decode .dv [0b00100000, 0] = .ok .capNone ∧ decode .dv [0b00110000, 0] = .ok .capReject ∧
      decode .dv [0b00111000, 0] = .ok .capAccept ∧ decode .dv [0b00101111, 0] = .ok .capNone ∧
      decode .dv [0b00110111, 0] = .ok .capReject := by decide +kernel

theorem test_decode_overflow_phase :
    decode .dv [0b01000000, 0] = .ok .ovfNone ∧ decode .dv [0b01000100, 0] = .ok .ovfTick ∧
      decode .dv [0b01000110, 0] = .ok .ovfTimeout ∧ decode .dv [0b01000010, 0] = .ok .ovfNone ∧
      decode .dv [0b01011111, 0] = .ok .ovfTimeout := by decide +kernel

theorem test_decode_other_phases :
    decode .dv [0b01100000, 0] = .ok .elapsed ∧ decode .dv [0b10000000, 0] = .ok .advRun ∧
      decode .dv [0b10000001, 0] = .ok .advHold ∧ decode .dv [0b10100000, 0] = .ok .clear ∧
      decode .dv [0b11000000, 0] = .ok .renderActive ∧ decode .dv [0b11000001, 0] = .ok .renderIdle ∧
      decode .dv [0b11100000, 0] = .ok .transmit ∧ decode .dv [0b00000000, 1] = .ok .settle ∧
      decode .dv [0b00011111, 1] = .ok .settle ∧ decode .frame [] = .ok .frame := by decide +kernel

theorem test_decode_micro_bundles :
    -- i 11111111 = -1, g 1, r 2, b 3, w 4
    decode .setPix [4, 3, 2, 1, 0b11111111] = .ok (.setPix (-1) 1 2 3 4) ∧
      decode .getPix [0b00110101] = .ok (.getPix 53) ∧
      -- j 11111111000 = -8 and j 00001101000 = 104
      decode .lutW [0b11111000, 0b111] = .ok (.lutW (-8)) ∧
      decode .lutW [0b01101000, 0] = .ok (.lutW 104) := by decide +kernel

theorem test_decode_prim_bundles :
    -- valid bit 1 and timestamp 300
    decode .capture [0b00101100, 0b00000001, 1] = .ok .readCaptureEvent ∧
      decode .overflow [1] = .ok .readOverflowEvent ∧
      decode .counter [0b00110110, 0b00000001] = .ok .currentCounterValue ∧
      decode .level [1] = .ok (.setOutputLevel true) ∧ decode .level [0] = .ok (.setOutputLevel false) ∧
      decode .slotTick [1] = .ok .waitSlotBoundary ∧
      decode .delay [80, 0] = .ok (.delay 80) := by decide +kernel

theorem test_decode_rejects_by_name :
    decode .dv [0x20] = .error .wrongLength ∧ decode .byte [] = .error .wrongLength ∧
      decode .dv [0x20, 2] = .error .paddingNotZero ∧ decode .sym [2] = .error .paddingNotZero ∧
      decode .dv [0b00011111, 0] = .error .noSuchPhase ∧ decode .dv [0b00100000, 1] = .error .noSuchPhase ∧
      decode .dv [0b11111111, 1] = .error .noSuchPhase ∧ decode .slotTick [0] = .error .noSlotTick := by decide +kernel

theorem test_encode_is_the_word :
    encode (.pixel 176 18 0 255) = [0xFF, 0x00, 0x12, 0xB0] ∧ encode .settle = [0x00, 0x01] ∧
      encode (.setPix (-1) 1 2 3 4) = [4, 3, 2, 1, 0xFF] ∧ encode (.lutW (-8)) = [0xF8, 0x07] := by decide +kernel

theorem test_table_words_run_first :
    decodeTableWord 16 0x038 = some .capAccept ∧ decodeTableWord 16 0x100 = some .settle ∧
      (step (State.reset.withFetchWord 16 0x038) = exec .capAccept (advance (State.reset.withFetchWord 16 0x038))) ∧
      fetch (advance (State.reset.withFetchWord 16 0x046)) = .ok .ovfTimeout ∧
      fetch (advance (State.reset.withFetchWord 16 0x030)) = .ok .capReject :=
  ⟨by decide +kernel, by decide +kernel, rfl, by decide +kernel, by decide +kernel⟩

/-! ## SPD (95_test_vectors.md 2.2, 2.3) -/

theorem test_capNone : after .capNone (quiet 1) = { quiet 2 with phase := 2 } := by decide +kernel

theorem test_capReject_period_127 :
    goesOn (captured 1000 0 999 .active 0 127) = true ∧
      (stepped (captured 1000 0 999 .active 0 127)).spd = (captured 1000 0 999 .active 0 127).spd := by decide +kernel

theorem test_capAccept_at_threshold :
    (stepped (captured 1000 0 999 .active 0 128)).spd
      = { speed := 16959, lastTs := 128, since := 0, mode := .active, capSeen := true } := by decide +kernel

theorem test_capAccept_across_wrap_and_from_idle :
    (stepped (captured 0 65000 0 .active 0 200)).spd.speed = 2786 ∧
      (stepped (captured 0 100 200000 .idle 5555 2100)).spd.speed = 1025 ∧
      (stepped (captured 0 100 200000 .idle 5555 2100)).ren.idleTime = 0 ∧
      (stepped (captured 777 1000 0 .active 8 999)).spd.speed = 760 ∧
      (stepped (captured 777 1000 0 .active 8 999)).ren.idleTime = 8 := by decide +kernel

theorem test_ovfNone :
    (after .ovfNone { wrapped true .active 200000 with bnd := State.reset.bnd }).spd
      = (wrapped true .active 200000).spd := by decide +kernel

theorem test_ovfTick_strict_and_in_window :
    (stepped (wrapped false .active 65536)).spd = (wrapped false .active 65536).spd ∧
      (stepped (wrapped true .active 200000)).spd.capSeen = false ∧
      (stepped (wrapped true .active 200000)).spd.mode = .active ∧
      (stepped (wrapped false .idle 200000)).spd = (wrapped false .idle 200000).spd := by decide +kernel

theorem test_ovfTimeout :
    (stepped (wrapped false .active 65537)).spd
        = { speed := 0, lastTs := 7, since := 65537, mode := .idle, capSeen := false } ∧
      (stepped (wrapped false .active 65537)).ren.idleTime = 0 := by decide +kernel

/-! ## POS (95_test_vectors.md 2.4) -/

theorem test_elapsed_across_wrap :
    (after .elapsed (counting 65530 5 100)).pos.elapsed = 11 ∧ (after .elapsed (counting 65530 5 100)).spd.since = 111 ∧
      (after .elapsed (counting 65530 5 100)).pos.prevNow = 5 := by decide +kernel

theorem test_elapsed_saturates :
    (after .elapsed (counting 0 65535 4294967285)).spd.since = 4294967295 ∧
      (after .elapsed (counting 10 9 0)).pos.elapsed = 65535 := by decide +kernel

theorem test_advRun :
    (after .advRun (moving 40 5000 0)).pos.offset = 471 ∧ (after .advRun (moving 1 100 5)).pos.offset = 5 ∧
      (after .advRun (moving 625 3125 0x7FFFFFFF)).pos.offset = 0x11FF := by decide +kernel

theorem test_advRun_wraps :
    (after .advRun (moving 40 5000 0x7FFFFF00)).pos.offset = 0xD7 ∧
      (after .advRun (moving 15625 1000 2147446784)).pos.offset = 0 ∧
      (after .advRun (moving 65535 4294967295 0)).pos.offset = 500206167 := by decide +kernel

theorem test_advHold : (stepped (idling 4 0 16000)).pos.offset = 23153382 := by decide +kernel

/-! ## REN (95_test_vectors.md 2.5 to 2.7) -/

theorem test_clear : (after .clear { onePixel with phase := 5 }).ren.pb = [] := by decide +kernel

theorem test_setPix_clamps :
    readPixel (after (.setPix 60 1 2 3 4) (quiet 6)).ren.pb 53 = ⟨1, 2, 3, 4⟩ ∧
      readPixel (after (.setPix (-1) 1 2 3 4) (quiet 6)).ren.pb 0 = ⟨1, 2, 3, 4⟩ ∧
      (after (.setPix 60 1 2 3 4) (quiet 6)).ren.pb = [(212, 1), (213, 2), (214, 3), (215, 4)] := by decide +kernel

theorem test_getPix_clamps :
    (after (.getPix 99) (after (.setPix 53 9 8 7 6) (quiet 6))).returned = .pixel ⟨9, 8, 7, 6⟩ ∧
      (after (.getPix 52) (after (.setPix 53 9 8 7 6) (quiet 6))).returned = .pixel ⟨0, 0, 0, 0⟩ := by decide +kernel

theorem test_lutW :
    [-8, -1, 0, 8, 16, 54, 104, 108, 162, 208, 215, 216, 575].map (lutWindow refConfig)
        = [0, 0, 0, 3, 14, 128, 254, 255, 128, 3, 0, 0, 0] ∧
      (after (.lutW 104) (quiet 6)).returned = .sample 254 := by decide +kernel

/-- The checks that 10_state.md R35 gives for the table. -/
theorem test_lut_checks :
    (refLut.map BitVec.toNat).sum = 27541 ∧
      ∀ k : Nat, k < 216 → 1 ≤ k → refLut.getD k 0 = refLut.getD (216 - k) 0 := by decide +kernel

/-- A table of 216 bytes with no hump, with two humps or with one half of a hump is no table of 10_state.md R36. -/
theorem test_singleHump :
    let twoHumps := List.replicate 72 1 ++ List.replicate 72 0 ++ List.replicate 71 1 ++ [0]
    singleHump (List.replicate 216 7) = false ∧ singleHump (0 :: twoHumps.dropLast) = false ∧
      singleHump (List.replicate 108 0 ++ List.replicate 108 9) = false ∧
      singleHump (List.replicate 108 0 ++ List.replicate 107 9 ++ [0]) = true ∧ singleHump refLut = true ∧
      { refParams with lut := List.replicate 216 7 }.legal = false := by decide +kernel

theorem test_renderIdle_shift_27 :
    half Pixel.b (after .renderIdle (idling 6 27648 40)) =
      [1, 8, 22, 40, 64, 91, 120, 149, 177, 203, 224, 240, 250, 254, 250, 240, 224, 203, 177, 149, 120, 91, 64, 40, 22, 8,
        1] ∧
      (after .renderIdle (idling 6 27648 40)).ren.idleTime = 27688 := by decide +kernel

theorem test_renderIdle_shift_40 :
    half Pixel.w (stepped (idling 6 40960 40)) =
      [127, 123, 117, 107, 95, 82, 67, 52, 38, 25, 15, 7, 1, 0, 1, 7, 15, 25, 38, 52, 67, 82, 95, 107, 117, 123, 127] ∧
      half Pixel.g (stepped (idling 6 40960 40)) = List.replicate 27 0 := by decide +kernel

theorem test_renderActive_0xD7 :
    half Pixel.g (after .renderActive (scrolling 0xD7))
        = List.replicate 18 0 ++ [2, 5, 10, 16, 22, 30, 37, 44, 51] ∧
      half Pixel.r (after .renderActive (scrolling 0xD7)) =
        [2, 5, 10, 16, 22, 30, 37, 44, 51, 56, 60, 63, 63, 63, 60, 56, 51, 44, 37, 30, 22, 16, 10, 5, 2, 0, 0] ∧
      half Pixel.b (after .renderActive (scrolling 0xD7)) = [37, 30, 22, 16, 10, 5, 2] ++ List.replicate 20 0 := by
  decide +kernel

theorem test_renderActive_last_offset :
    half Pixel.r (stepped (scrolling 0x7FFFFFFF)) =
        [52, 57, 61, 63, 63, 62, 59, 55, 49, 42, 35, 28, 21, 14, 8, 4, 1] ++ List.replicate 10 0 ∧
      (readPixel (stepped (scrolling 0x7FFFFFFF)).ren.pb 53).g = 49 := by decide +kernel

/-! ## ENC (95_test_vectors.md 2.1, P1) -/

/-- The reference durations of 40_serial_encoder.md R80, in picoseconds. -/
theorem test_symbols :
    (after .sym0 (quiet 7)).wire = [.slot 312500 937500] ∧ (after .sym1 (quiet 7)).wire = [.slot 625000 625000] ∧
      (after .sym1 (quiet 7)).enc.dout = false := by decide +kernel

theorem test_byte :
    classes 8 (after (.byte 0xB0) (quiet 7)) = ['L', 'S', 'L', 'L', 'S', 'S', 'S', 'S'] ∧
      classes 8 (after (.byte 0xA5) (quiet 7)) = ['L', 'S', 'L', 'S', 'S', 'L', 'S', 'L'] ∧
      (after (.byte 0xB0) (quiet 7)).wire.length = 8 := by decide +kernel

theorem test_pixel_red_is_second :
    classes 32 (after (.pixel 0 255 0 0) (quiet 7))
      = List.replicate 8 'S' ++ List.replicate 8 'L' ++ List.replicate 16 'S' := by decide +kernel

/-- PIXEL of an index, on the buffer of program P1: pixel 0 is the bytes B0 12 00 FF, and 63 stands for pixel 53. -/
theorem test_pixelAt :
      ((List.range 4).map (receivedByte refConfig (trace (after (.pixelAt 0) onePixel)))) = [0xB0, 0x12, 0, 0xFF] ∧
      (after (.pixelAt 63) onePixel).enc.pixIdx = 53 ∧
      (after (.pixelAt 53) onePixel).wire = (after (.pixel 0 0 0 0) onePixel).wire := by decide +kernel

/-- From a tick the interval is T_RESET alone; 1 µs into a slot the remaining 250 ns come before it. -/
theorem test_latch :
    (after .latch onePixel).wire = [.low 80000000] ∧ (after .latch onePixel).enc.encState = .idle ∧
      (after .latch onePixel).time = 80000000 ∧
      (after .latch (advance { onePixel with env := [[.slotTime 1000000]] })).time = 80250000 := by decide +kernel

theorem test_transmit_P1 :
    (stepped onePixel).wire.length = 1729 ∧
      ((trace (stepped onePixel)).take 10).map (receivedBit refConfig)
        = [true, false, true, true, false, false, false, false, false, false] ∧
      ((List.range 6).map (receivedByte refConfig (trace (stepped onePixel)))) = [0xB0, 0x12, 0, 0xFF, 0, 0] ∧
      (stepped onePixel).phase = 8 := by decide +kernel

/-- The numbers of 40_serial_encoder.md R80 and R84: 54 × 32 slots of 1250 ns, then 80 µs, after a wait of one slot. -/
theorem test_clocked_slot :
    (List.range 20).filter (compareOutput refConfig .shift false) = [0, 1, 2, 3, 4] ∧
      compareOutput refConfig .latch true 0 = false ∧ refConfig.tSlot = 1250000 ∧
      (stepped onePixel).time = 2241250000 := by decide +kernel

/-- A clock of 50 ns with 25, 6 and 12 periods has the nominal 1250, 300 and 600 ns of 00_scope.md R8. -/
theorem test_nominal_slot :
    let p := { refParams with tClk := 50000, slotCycles := 25, duty0Cycles := 6, duty1Cycles := 12 }
    p.legal = true ∧ p.tSlot = 1250000 ∧ p.t0h = 300000 ∧ p.t1h = 600000 := by decide +kernel

/-- The count wraps from SLOT_CYCLES − 1 = 19 to 0 (40_serial_encoder.md R80). -/
theorem test_slot_timer_wraps :
    runSlot refConfig 62500 { count := 18, within := 100 } = { count := 19, within := 100 } ∧
      runSlot refConfig 62500 { count := 19, within := 100 } = { count := 0, within := 100 } ∧
      runSlot refConfig 62400 { count := 19, within := 100 } = { count := 0, within := 0 } := by decide +kernel

/-! ## SEQ and the boundary (95_test_vectors.md 2.8; 44_sequencer.md R122) -/

theorem test_settle :
    (stepped (quiet 8)).phase = 1 ∧ (stepped (quiet 8)).bnd = (quiet 8).bnd ∧ (stepped (quiet 8)).wire = [] := by
  decide +kernel

/-- The worked example of FRAME: from reset, `iter cap=300 ovf=0 now=310`. -/
theorem test_frame :
    let t := after .frame { State.reset with env := iteration (some 300) false 310 }
    t.spd = { speed := 6835, lastTs := 300, since := 310, mode := .active, capSeen := true } ∧
      t.pos = { offset := 4998, prevNow := 310, elapsed := 310 } ∧ t.phase = 1 := by decide +kernel

/-- Two edges at counter values 300 and 340 before the call: Some(340), then None. -/
theorem test_readCapture_later_edge :
    let s := advance { quiet 1 with env := [[.ticks 300, .edge, .ticks 40, .edge]] }
    (after .readCaptureEvent s).returned = .capture (some 340) ∧
      (after .readCaptureEvent (after .readCaptureEvent s)).returned = .capture none := by decide +kernel

/-- The counter wrapped twice since the last call: true, then false. -/
theorem test_readOverflow_two_wraps :
    let s := advance { quiet 1 with env := [[.ticks 131072]] }
    (after .readOverflowEvent s).returned = .overflow true ∧
      (after .readOverflowEvent (after .readOverflowEvent s)).returned = .overflow false := by decide +kernel

theorem test_counter_ten_ticks_after_edge :
    (after .currentCounterValue (advance { quiet 1 with env := [[.ticks 300, .edge, .ticks 10]] })).returned
      = .counter 310 := by decide +kernel

/-- A pending event stays until it is polled: script lines `cap -` and `ovf 0` are no events (10_state.md R38). -/
theorem test_no_event_keeps_pending_flags :
    let s := { quiet 1 with
      bnd := { State.reset.bnd with capFlag := true, ovfFlag := true }, env := iteration none false 5 }
    (advance (advance (advance s))).bnd.capFlag = true ∧ (advance (advance (advance s))).bnd.ovfFlag = true ∧
      (advance (advance (advance s))).bnd.cnt = 5 := by decide +kernel

theorem test_setOutputLevel : (after (.setOutputLevel true) (quiet 7)).enc.dout = true := by decide +kernel

theorem test_waitSlotBoundary_from_boundary_waits_a_slot :
    (after .waitSlotBoundary (quiet 7)).time = 1250000 ∧
      (after .waitSlotBoundary (advance { quiet 7 with env := [[.slotTime 1000000]] })).time = 250000 := by decide +kernel

theorem test_delay : (after (.delay 0) (quiet 8)) = quiet 8 ∧ (after (.delay 80) (quiet 8)).time = 80000000 := by
  decide +kernel

/-! ## Witnesses: states and operands that meet the hypotheses of the obligations, one for each clause -/

theorem test_witness_DecodeOfEncodeIsIdentity :
    (Instr.setPix 127 0 255 0 255).wellFormed = true ∧ (Instr.getPix (-128)).wellFormed = true ∧
      (Instr.lutW (-1024)).wellFormed = true ∧ (Instr.delay 65535).wellFormed = true ∧
      Instr.capNone.wellFormed = true := by decide

theorem test_witness_OperationMapSelectsAsTheTable :
    let ok (v : BitVec 9) := 1 ≤ v.toNat / 32 ∧ v.toNat / 32 ≤ 8;
    ok 0x020 ∧ ok 0x03F ∧ ok 0x11F := by decide

theorem test_witness_StepRunsTheDecodedOperation :
    decode .dv (fetchBytes (advance (quiet 1))) = .ok .capNone ∧
      decode .dv (fetchBytes (advance (quiet 8))) = .ok .settle := by decide +kernel

/-- The states of the clauses, in their order; periods 127 and 128 and `since` 65536 and 65537 are the boundaries. -/
theorem test_witness_StepPerformsTheSelectedOutcome :
    (let u := advance (quiet 1);
      (quiet 1).phase = 1 ∧ u.bnd.capFlag = false) ∧
    (let s := captured 0 0 0 .active 0 127;
      s.phase = 1 ∧ (advance s).bnd.capFlag = true ∧ capturePeriod (advance s) < s.cfg.debounceTicks) ∧
    (let s := captured 0 0 0 .active 0 128;
      s.phase = 1 ∧ (advance s).bnd.capFlag = true ∧ s.cfg.debounceTicks ≤ capturePeriod (advance s)) ∧
    ((quiet 2).phase = 2 ∧ (advance (quiet 2)).bnd.ovfFlag = false) ∧
    (let s := wrapped false .active 65536;
      s.phase = 2 ∧ (advance s).bnd.ovfFlag = true ∧
        ¬ (s.spd.capSeen = false ∧ s.spd.mode = .active ∧ 65536 < s.spd.since.toNat)) ∧
    (let s := wrapped false .active 65537;
      s.phase = 2 ∧ (advance s).bnd.ovfFlag = true ∧
        s.spd.capSeen = false ∧ s.spd.mode = .active ∧ 65536 < s.spd.since.toNat) ∧
    (quiet 3).phase = 3 ∧
    ((quiet 4).phase = 4 ∧ (quiet 4).spd.mode = .active) ∧ ((idling 4 0 0).phase = 4 ∧ (idling 4 0 0).spd.mode = .idle) ∧
    (quiet 5).phase = 5 ∧
    ((quiet 6).phase = 6 ∧ (quiet 6).spd.mode = .active) ∧ ((idling 6 0 0).phase = 6 ∧ (idling 6 0 0).spd.mode = .idle) ∧
    (quiet 7).phase = 7 ∧ (quiet 8).phase = 8 := by decide +kernel

theorem test_witness_StepFaultsExactlyOnIllegalPhases :
    (quiet 0).phase = 0 ∧ 9 ≤ (quiet 9).phase.toNat ∧ 9 ≤ (quiet 15).phase.toNat ∧
      (1 ≤ (quiet 1).phase.toNat ∧ (quiet 1).phase.toNat ≤ 8) ∧ (1 ≤ (quiet 8).phase.toNat ∧ (quiet 8).phase.toNat ≤ 8) ∧
      faultsAt (quiet 0) 0 = true ∧ faultsAt (quiet 9) 9 = true ∧ goesOn (quiet 8) = true := by decide +kernel

/-- Steps that have a next state: PhaseAdvancesCyclically, PollsAcknowledgeTheirEvent, ModeStandsFromPhaseThreeOn. -/
theorem test_witness_steps_go_on :
    step (quiet 1) = .next (stepped (quiet 1)) ∧ step (quiet 2) = .next (stepped (quiet 2)) ∧
      (3 ≤ (quiet 3).phase.toNat ∧ step (quiet 3) = .next (stepped (quiet 3))) ∧
      (3 ≤ (quiet 8).phase.toNat ∧ step (quiet 8) = .next (stepped (quiet 8))) ∧
      ((captured 0 0 0 .active 0 128).phase = 1 ∧
        step (captured 0 0 0 .active 0 128) = .next (stepped (captured 0 0 0 .active 0 128))) ∧
      ((wrapped true .active 0).phase = 2 ∧ step (wrapped true .active 0) = .next (stepped (wrapped true .active 0))) :=
  ⟨next_of_goesOn (by decide +kernel), next_of_goesOn (by decide +kernel),
    ⟨by decide +kernel, next_of_goesOn (by decide +kernel)⟩, ⟨by decide +kernel, next_of_goesOn (by decide +kernel)⟩,
    ⟨by decide +kernel, next_of_goesOn (by decide +kernel)⟩, ⟨by decide +kernel, next_of_goesOn (by decide +kernel)⟩⟩

theorem test_witness_EveryStepKeepsTheInvariants :
    Inv (idling 6 27648 40) ∧ step (idling 6 27648 40) = .next (stepped (idling 6 27648 40)) :=
  ⟨⟨by decide +kernel, by decide +kernel, by decide +kernel, by decide +kernel, by decide +kernel, by decide +kernel,
    by decide +kernel, by decide +kernel⟩, next_of_goesOn (by decide +kernel)⟩

/-- 256347, the instantaneous speed of the debounce threshold, is the bound itself. -/
theorem test_witness_EveryStepKeepsTheSpeedBound :
    let s := captured 256347 0 0 .active 0 128
    s.spd.speed.toNat ≤ speedBound s.cfg ∧ step s = .next (stepped s) :=
  ⟨by decide +kernel, next_of_goesOn (by decide +kernel)⟩

theorem test_witness_EncoderRestsBetweenPhases :
    (quiet 3).enc = encAtRest ∧ step (quiet 3) = .next (stepped (quiet 3)) :=
  ⟨by decide +kernel, next_of_goesOn (by decide +kernel)⟩

theorem test_witness_NoOperationWritesTheConfiguration :
    exec (.setPix 53 1 2 3 4) (quiet 6) = .next (after (.setPix 53 1 2 3 4) (quiet 6)) := rfl

theorem test_witness_NoOperationLeavesTheBuffer :
    exec (.setPix 60 1 2 3 4) onePixel = .next (after (.setPix 60 1 2 3 4) onePixel) ∧
      onePixel.ren.pb.wf = true ∧ onePixel.ren.pb.below frameBytes = true := ⟨rfl, by decide +kernel, by decide +kernel⟩

theorem test_witness_CapNoneAndRejectIgnoreTheCapture :
    (Instr.capNone = .capNone ∨ Instr.capNone = .capReject) ∧
      (Instr.capReject = .capNone ∨ Instr.capReject = .capReject) := by decide

theorem test_witness_CapAcceptFiltersTheSpeed :
    let s := captured 1000 0 999 .active 0 128
    s.bnd.capFlag = true ∧ s.cfg.debounceTicks ≤ capturePeriod s := by decide +kernel

/-- Period 300, target 109375: at the target, below it with equal high parts, and above it. -/
theorem test_witness_SpeedConvergesMonotonically :
    let s (speed : U32) := captured speed 0 0 .active 0 300
    let target := (s 0).cfg.speedNum / (capturePeriod (s 0) * (s 0).cfg.ticksPerRev)
    (s 0).cfg.debounceTicks ≤ capturePeriod (s 0) ∧ exec .capAccept (s 0) = .next (after .capAccept (s 0)) ∧
      (s 109375).spd.speed.toNat ≤ target ∧ (s 109360).spd.speed.toNat / 16 = target / 16 ∧
      target / 16 < (s 109376).spd.speed.toNat / 16 :=
  ⟨by decide +kernel, rfl, by decide +kernel, by decide +kernel, by decide +kernel⟩

theorem test_witness_TimeoutConditionIsExact :
    let s (since : U32) := wrapped false .active since;
    ((s 65537).phase = 2 ∧ (s 65537).spd.mode = .active ∧ (stepped (s 65537)).spd.mode = .idle) ∧
      ((s 65536).phase = 2 ∧ (s 65536).spd.mode = .active ∧ (stepped (s 65536)).spd.mode = .active) ∧
      step (s 65537) = .next (stepped (s 65537)) ∧ step (s 65536) = .next (stepped (s 65536)) :=
  ⟨by decide +kernel, by decide +kernel, next_of_goesOn (by decide +kernel), next_of_goesOn (by decide +kernel)⟩

theorem test_witness_OnlyTimeoutAndAcceptChangeTheMode :
    (let s := wrapped false .active 65537;
      exec .ovfTimeout s = .next (after .ovfTimeout s) ∧ s.spd.mode = .active ∧ (after .ovfTimeout s).spd.mode = .idle) ∧
    (let s := captured 0 0 0 .idle 0 128;
      exec .capAccept s = .next (after .capAccept s) ∧ s.spd.mode = .idle ∧ (after .capAccept s).spd.mode = .active) :=
  ⟨⟨rfl, by decide +kernel, by decide +kernel⟩, ⟨rfl, by decide +kernel, by decide +kernel⟩⟩

/-- A capture and an overflow pending at once, `since` far above the limit. -/
theorem test_witness_AcceptedCaptureShieldsFromTimeout :
    let s := { captured 0 0 200000 .active 0 128 with
      bnd := { State.reset.bnd with capFlag := true, capLatch := 128, ovfFlag := true } }
    s.phase = 1 ∧ (advance s).bnd.capFlag = true ∧ s.cfg.debounceTicks ≤ capturePeriod (advance s) ∧
      step s = .next (stepped s) ∧ step (stepped s) = .next (stepped (stepped s)) :=
  ⟨by decide +kernel, by decide +kernel, by decide +kernel, next_of_goesOn (by decide +kernel),
    next_of_goesOn (by decide +kernel)⟩

/-- A sum of exactly 2^31, and one below. -/
theorem test_witness_PositionWrapIsOneSubtraction :
    let inc (s : State) := s.pos.elapsed.toNat * s.spd.speed.toNat * s.cfg.kNum / (s.cfg.kDen * 15625)
    let s := moving 15625 1000 2147446784
    let r := moving 15625 1000 2147446783
    s.pos.offset.toNat < 2 ^ 31 ∧ inc s < 2 ^ 31 ∧ 2 ^ 31 ≤ s.pos.offset.toNat + inc s ∧
      s.pos.offset.toNat + inc s = 2 ^ 31 ∧ r.pos.offset.toNat < 2 ^ 31 ∧ r.pos.offset.toNat + inc r < 2 ^ 31 ∧
      exec .advRun s = .next (after .advRun s) :=
  ⟨by decide +kernel, by decide +kernel, by decide +kernel, by decide +kernel, by decide +kernel, by decide +kernel, rfl⟩

theorem test_witness_PositionIsFrozenInIdle :
    ((idling 4 0 16000).spd.mode = .idle ∧ step (idling 4 0 16000) = .next (stepped (idling 4 0 16000))) ∧
      ((idling 3 0 0).spd.mode = .idle ∧ (idling 3 0 0).phase = 3 ∧ step (idling 3 0 0) = .next (stepped (idling 3 0 0))) :=
  ⟨⟨by decide +kernel, next_of_goesOn (by decide +kernel)⟩,
    ⟨by decide +kernel, by decide +kernel, next_of_goesOn (by decide +kernel)⟩⟩

theorem test_witness_SetPixThenGetPixReturnsTheSame :
    (0 ≤ (53 : Int) ∧ (53 : Int) ≤ 53) ∧ (0 ≤ (0 : Int) ∧ (0 : Int) ≤ 53) ∧
      exec (.setPix 53 1 2 3 4) (quiet 6) = .next (after (.setPix 53 1 2 3 4) (quiet 6)) :=
  ⟨by decide, by decide, rfl⟩

/-- The boundary values of the window: 0 and 215 inside, −1 and 216 outside. -/
theorem test_witness_LutWReadsTheWindow :
    ((0 : Int) = (0 : Nat) ∧ (0 : Nat) < 216) ∧ ((215 : Int) = (215 : Nat) ∧ (215 : Nat) < 216) ∧ (-1 : Int) < 0 ∧
      (215 : Int) < 216 := by decide

theorem test_witness_phase_six :
    ((quiet 6).phase = 6 ∧ step (quiet 6) = .next (stepped (quiet 6))) ∧
      (let r := { quiet 6 with ren := { State.reset.ren with pb := onePixel.ren.pb } };
        step r = .next (stepped r)) ∧
      ((idling 6 27648 40).phase = 6 ∧ step (idling 6 27648 40) = .next (stepped (idling 6 27648 40))) :=
  ⟨⟨by decide +kernel, next_of_goesOn (by decide +kernel)⟩, next_of_goesOn (by decide +kernel),
    ⟨by decide +kernel, next_of_goesOn (by decide +kernel)⟩⟩

theorem test_witness_IdlePulseIsSymmetric :
    exec .renderIdle (idling 6 14336 40) = .next (after .renderIdle (idling 6 14336 40)) := rfl

theorem test_witness_RainbowIgnoresTheLowOffsetBits :
    (0xFF : U32).toNat / 32 = (scrolling 0xE0).pos.offset.toNat / 32 ∧
      exec .renderActive (scrolling 0xE0) = .next (after .renderActive (scrolling 0xE0)) ∧
      exec .renderActive { scrolling 0xE0 with pos := { (scrolling 0xE0).pos with offset := 0xFF } }
        = .next (after .renderActive (scrolling 0xFF)) := ⟨by decide, rfl, rfl⟩

/-- Both forms, at the last stored pixel and at an index past it. -/
theorem test_witness_PixelEmitsItsWordFromBit31 :
    (∃ i : BitVec 6, Instr.pixelAt 53 = .pixelAt i ∧
      (⟨0, 0, 0, 0⟩ : Pixel) = readPixel onePixel.ren.pb (nearestPixel i.toNat) ∧
        (53 : BitVec 6).toNat = nearestPixel i.toNat) ∧
    (∃ i : BitVec 6, Instr.pixelAt 63 = .pixelAt i ∧
      (⟨0, 0, 0, 0⟩ : Pixel) = readPixel onePixel.ren.pb (nearestPixel i.toNat) ∧
        (53 : BitVec 6).toNat = nearestPixel i.toNat) ∧
    (Instr.pixel 1 2 3 4 = .pixel (Pixel.mk 1 2 3 4).g (Pixel.mk 1 2 3 4).r (Pixel.mk 1 2 3 4).b (Pixel.mk 1 2 3 4).w ∧
      (0 : BitVec 6) = onePixel.enc.pixIdx) :=
  ⟨⟨53, rfl, by decide +kernel, by decide⟩, ⟨63, rfl, by decide +kernel, by decide⟩, rfl, rfl⟩

/-- TransmitTakesTheFrameTime, ReceiverRecoversTheBuffer. -/
theorem test_witness_transmit_answers : exec .transmit onePixel = .next (after .transmit onePixel) := rfl

theorem test_witness_TransmitIsItsPixelsThenLatch :
    exec .transmit onePixel = .next (after .transmit onePixel) ∧ transmissionOps.length = 55 ∧
      (transmissionWords onePixel.ren.pb).length = 55 := ⟨rfl, by decide +kernel, by decide +kernel⟩

theorem test_witness_FrameIsEightSteps : State.reset.phase = 1 := by decide

/-- FRAME from Idle without a capture ends in Idle; from Active without an overflow it ends in Active. -/
theorem test_witness_FrameSendsTheRenderedBuffer :
    (after .frame { idling 1 27648 40 with env := iteration none false 50 }).spd.mode = .idle ∧
      (after .frame { quiet 1 with env := iteration none false 50 }).spd.mode = .active := by decide +kernel

theorem test_witness_SlotTimerTicksAtTheWrap :
    let low : SlotTimer := { count := 0, within := 62499 }
    let high : SlotTimer := { count := 19, within := 0 }
    low.count < refConfig.slotCycles ∧ low.within < refConfig.tClk ∧
      high.count < refConfig.slotCycles ∧ high.within < refConfig.tClk ∧ high.count + 1 = refConfig.slotCycles := by
  decide +kernel

end Sys2Proof.Tests
end

section
/-! PROOFS for 00_scope.md. What the boundary device leaves alone, the falling edge of the compare output, what a
transmission puts on the wire, and what one iteration, FRAME, does: it composes a picture and sends it. -/

namespace Sys2Proof.Machine

/-! ### The boundary device (O5) -/

/-- Settles O5: the record updates of `advance` are those of `Laws/State.lean`. -/
theorem boundaryDeviceTouchesNoCoreState : Obligations.BoundaryDeviceTouchesNoCoreState := fun s =>
  ⟨advance_phase s, advance_spd s, advance_pos s, advance_ren s, advance_enc s, advance_cfg s,
    advance_wire s, advance_returned s, advance_time s⟩

/-! ### The compare output (O49) -/

theorem compareOutput_of_ne_shift (c : Config) {st : EncState} (h : st ≠ .shift) (duty : Bool) (n : Nat) :
    compareOutput c st duty n = false := by
  simp [compareOutput, h]

theorem compareOutput_shift (c : Config) (duty : Bool) (n : Nat) :
    compareOutput c .shift duty n = decide (n < dutyCycles c duty) := by
  simp [compareOutput]

/-- Of the first `n` counts, those below a threshold inside them are as many as the threshold. -/
theorem length_filter_range_lt {k n : Nat} (h : k ≤ n) : ((List.range n).filter (· < k)).length = k := by
  rw [← List.Ico.zero_bot, List.Ico.filter_lt, List.Ico.length, Nat.sub_zero, Nat.min_eq_right h]

/-- Settles O49: in ENC_SHIFT the compare output is the comparison with a threshold that `dutyCycles_lt` puts inside the
slot. -/
theorem clockedSlotFallsOnce : Obligations.ClockedSlotFallsOnce := by
  intro c duty
  refine ⟨fun st n h => compareOutput_of_ne_shift c h duty n, dutyCycles_lt c duty, fun n => ?_, ?_⟩
  · rw [compareOutput_shift, decide_eq_true_eq]
    rfl
  · have hfun : compareOutput c .shift duty = fun n => decide (n < dutyCycles c duty) :=
      funext (compareOutput_shift c duty)
    rw [hfun]
    exact length_filter_range_lt (dutyCycles_lt c duty).le

/-! ### What TRANSMIT puts on the wire (40_serial_encoder.md R78) -/

/-- Counting in blocks: `a` blocks of `b` are `a * b` in a row. -/
theorem map_range_mul {α : Type} (f : Nat → α) (b : Nat) :
    ∀ a, (List.range (a * b)).map f = (List.range a).flatMap fun i => (List.range b).map fun j => f (i * b + j)
  | 0 => by simp
  | a + 1 => by
    rw [Nat.succ_mul, List.range_add, List.map_append, map_range_mul f b a, List.range_succ, List.flatMap_append,
      List.map_map]
    simp

/-- Slot `j` of pixel `i` carries bit `7 − (j mod 8)` of that pixel's channel `j / 8`. -/
theorem slotBit_of_pixel (m : Memory) (i : Nat) {j : Nat} (h : j < 32) :
    slotBit m (i * 32 + j) = ((readPixel m i).channel (j / 8)).getLsbD (7 - j % 8) := by
  have hi : (i * 32 + j) / 32 = i := by omega
  have hc : (i * 32 + j) / 8 % 4 = j / 8 := by omega
  have hb : (i * 32 + j) % 8 = j % 8 := by omega
  rw [slotBit, hi, hc, hb]

/-- The 32 slots of pixel `i` are the symbols of its four bytes. -/
theorem map_slotBit_pixel (c : Config) (m : Memory) (i : Nat) :
    ((List.range 32).map fun j => symbol c (slotBit m (i * 32 + j))) = pixelSymbols c (readPixel m i) := by
  have h : ∀ j ∈ List.range 32, symbol c (slotBit m (i * 32 + j))
      = symbol c (((readPixel m i).channel (j / 8)).getLsbD (7 - j % 8)) := fun j hj => by
    rw [slotBit_of_pixel m i (List.mem_range.mp hj)]
  rw [List.map_congr_left h]
  rfl

/-- The frame of a buffer is its 54 pixels' symbols, one pixel after another. -/
theorem frameSymbols_eq_flatMap (c : Config) (m : Memory) :
    frameSymbols c m = (List.range nPix).flatMap fun i => pixelSymbols c (readPixel m i) := by
  rw [frameSymbols, show 1728 = nPix * 32 from rfl, map_range_mul]
  simp only [map_slotBit_pixel]

theorem sendPixelAt_wire (i : Nat) (s : State) :
    (sendPixelAt i s).wire = (pixelSymbols s.cfg (readPixel s.ren.pb i)).reverse ++ s.wire :=
  sendPixel_wire _ _

theorem sendPixelAt_ren (i : Nat) (s : State) : (sendPixelAt i s).ren = s.ren := by
  obtain ⟨-, -, -, hren, -⟩ := sendPixelAt_sameCore i s
  exact hren

theorem sendPixelAt_cfg (i : Nat) (s : State) : (sendPixelAt i s).cfg = s.cfg := by
  obtain ⟨-, -, -, -, hcfg, -⟩ := sendPixelAt_sameCore i s
  exact hcfg

/-- The loop of TRANSMIT over any pixel indices: the pixels' symbols in that order. -/
theorem sendPixels_wire : ∀ (l : List Nat) (s : State),
    (l.foldl (fun s i => sendPixelAt i s) s).wire
      = (l.flatMap fun i => pixelSymbols s.cfg (readPixel s.ren.pb i)).reverse ++ s.wire
  | [], _ => rfl
  | i :: l, s => by
    rw [List.foldl_cons, sendPixels_wire l, sendPixelAt_ren, sendPixelAt_cfg, sendPixelAt_wire, List.flatMap_cons,
      List.reverse_append, List.append_assoc]

theorem sendPixels_cfg (l : List Nat) (s : State) : (l.foldl (fun s i => sendPixelAt i s) s).cfg = s.cfg :=
  foldl_keeps State.cfg _ (fun s i => sendPixelAt_cfg i s) l s

theorem transmit_wire (s : State) :
    (transmit s).wire = .low s.cfg.tReset :: ((frameSymbols s.cfg s.ren.pb).reverse ++ s.wire) := by
  rw [transmit, goPhase_wire, endTransmit_wire, holdLatch_eq, sendPixels_cfg, sendPixels_wire, frameSymbols_eq_flatMap]
  simp only [beginSync_cfg, beginSync_ren, beginSync_wire]

theorem transmit_trace (s : State) :
    trace (transmit s) = trace s ++ frameSymbols s.cfg s.ren.pb ++ [.low s.cfg.tReset] := by
  simp [trace, transmit_wire]

theorem transmit_enc (s : State) : (transmit s).enc = encAtRest := by
  rw [transmit, goPhase_enc, endTransmit_enc, holdLatch_eq]
  rfl


/-! ### What FRAME does (44_sequencer.md R122): it composes a picture, lines 1 to 6, and sends it, lines 7 and 8 -/

/-- Nothing was put on the wire or answered, and the configuration stands. -/
def Unsent (s t : State) : Prop := t.wire = s.wire ∧ t.cfg = s.cfg ∧ t.returned = s.returned

theorem Unsent.trans {s t u : State} (h : Unsent s t) (k : Unsent t u) : Unsent s u := by
  obtain ⟨hw, hc, hr⟩ := h
  obtain ⟨kw, kc, kr⟩ := k
  exact ⟨kw.trans hw, kc.trans hc, kr.trans hr⟩

theorem advance_unsent (s : State) : Unsent s (advance s) := ⟨advance_wire s, advance_cfg s, advance_returned s⟩

theorem pollCapture_unsent (s : State) : Unsent s (pollCapture s) := by
  unfold pollCapture
  split_ifs <;> exact ⟨rfl, rfl, rfl⟩

theorem pollOverflow_unsent (s : State) : Unsent s (pollOverflow s) := by
  unfold pollOverflow
  split_ifs <;> exact ⟨rfl, rfl, rfl⟩

theorem elapsed_unsent (s : State) : Unsent s (elapsed s) := ⟨rfl, rfl, rfl⟩

theorem integrate_unsent (s : State) : Unsent s (integrate s) := by
  unfold integrate
  split_ifs <;> exact ⟨rfl, rfl, rfl⟩

theorem clear_unsent (s : State) : Unsent s (clear s) := by simp [Unsent, clear]

theorem render_unsent (s : State) : Unsent s (render s) := by
  unfold render
  split_ifs <;> exact ⟨rfl, rfl, rfl⟩

/-! The mode is settled by the two polls; the offset is written by `integrate` alone, and not in Idle. -/

theorem idle_eq_true_iff (s : State) : idle s = true ↔ s.spd.mode = .idle := by simp [idle]

@[simp] theorem pollCapture_pos (s : State) : (pollCapture s).pos = s.pos := by
  unfold pollCapture
  split_ifs <;> rfl

@[simp] theorem pollOverflow_pos (s : State) : (pollOverflow s).pos = s.pos := by
  unfold pollOverflow
  split_ifs <;> rfl

@[simp] theorem elapsed_offset (s : State) : (elapsed s).pos.offset = s.pos.offset := rfl

@[simp] theorem integrate_spd (s : State) : (integrate s).spd = s.spd := by
  unfold integrate
  split_ifs <;> rfl

theorem integrate_pos_of_idle {s : State} (h : s.spd.mode = .idle) : (integrate s).pos = s.pos := by
  rw [integrate, if_pos ((idle_eq_true_iff s).mpr h)]
  rfl

@[simp] theorem clear_spd (s : State) : (clear s).spd = s.spd := by simp [clear]

@[simp] theorem clear_pos (s : State) : (clear s).pos = s.pos := by simp [clear]

@[simp] theorem render_spd (s : State) : (render s).spd = s.spd := by
  unfold render
  split_ifs <;> rfl

@[simp] theorem render_pos (s : State) : (render s).pos = s.pos := by
  unfold render
  split_ifs <;> rfl

/-! The picture of phase 6, in either mode. -/

/-- The pixel that the render mux draws at a position, by the mode. -/
def renderedPixel (s : State) (p : Nat) : Pixel :=
  if s.spd.mode = .idle then idlePixel s.cfg s.ren.idleTime p else rainbowPixel s.cfg s.pos.offset p

theorem render_pb (s : State) : (render s).ren.pb = drawHalves (renderedPixel s) s.ren.pb := by
  unfold render
  split_ifs with h
  · have hp : renderedPixel s = idlePixel s.cfg s.ren.idleTime :=
      funext fun p => if_pos ((idle_eq_true_iff s).mp h)
    rw [hp]
    rfl
  · have hp : renderedPixel s = rainbowPixel s.cfg s.pos.offset :=
      funext fun p => if_neg fun hm => h ((idle_eq_true_iff s).mpr hm)
    rw [hp]
    rfl

/-- A rendered buffer shows at every pixel its position in the half. -/
theorem readPixel_render (s : State) {i : Nat} (h : i < 54) :
    readPixel (render s).ren.pb i = renderedPixel s (i % 27) := by
  rw [render_pb, readPixel_drawHalves]
  by_cases hi : i < 27
  · rw [if_pos hi, Nat.mod_eq_of_lt hi]
  · rw [if_neg hi, if_pos h, show i % 27 = i - 27 by omega]

theorem readPixel_render_half (s : State) {i : Nat} (h : i < 27) :
    readPixel (render s).ren.pb i = readPixel (render s).ren.pb (27 + i) := by
  rw [readPixel_render s (by omega), readPixel_render s (by omega), Nat.add_mod_left]

theorem renderedPixel_of_idle {s : State} (h : s.spd.mode = .idle) (p : Nat) :
    (renderedPixel s p).g = 0 ∧ (renderedPixel s p).r = 0 := by
  rw [renderedPixel, if_pos h]
  exact ⟨rfl, rfl⟩

theorem renderedPixel_of_active {s : State} (h : s.spd.mode = .active) (p : Nat) : (renderedPixel s p).w = 0 := by
  rw [renderedPixel, if_neg (by rw [h]; decide)]
  rfl

/-! The two parts of FRAME. -/

/-- Lines 1 to 3 of FRAME: the two polls and the ticks. -/
def measure (s : State) : State := elapsed (advance (pollOverflow (advance (pollCapture (advance s)))))

/-- Lines 1 to 5 of FRAME: what the render mux reads, and the cleared buffer it draws on. -/
def prepare (s : State) : State := clear (advance (integrate (advance (measure s))))

/-- Lines 7 and 8 of FRAME. -/
def sendOut (s : State) : State := settle (advance (transmit (advance s)))

theorem frame_eq (s : State) : frame s = sendOut (render (advance (prepare s))) := by
  simp only [frame, List.foldl_cons, List.foldl_nil, sendOut, prepare, measure]

theorem measure_unsent (s : State) : Unsent s (measure s) :=
  (advance_unsent s).trans <| (pollCapture_unsent _).trans <| (advance_unsent _).trans <|
    (pollOverflow_unsent _).trans <| (advance_unsent _).trans (elapsed_unsent _)

theorem prepare_unsent (s : State) : Unsent s (prepare s) :=
  (measure_unsent s).trans <| (advance_unsent _).trans <| (integrate_unsent _).trans <|
    (advance_unsent _).trans (clear_unsent _)

theorem measure_offset (s : State) : (measure s).pos.offset = s.pos.offset := by simp [measure]

theorem prepare_spd (s : State) : (prepare s).spd = (measure s).spd := by simp [prepare]

theorem prepare_offset_of_idle {s : State} (h : (prepare s).spd.mode = .idle) :
    (prepare s).pos.offset = s.pos.offset := by
  have hm : (advance (measure s)).spd.mode = .idle := by rw [advance_spd, ← prepare_spd, h]
  rw [prepare, clear_pos, advance_pos, integrate_pos_of_idle hm, advance_pos, measure_offset]

/-- The transmission and the wait leave the composed picture and what it was composed from. -/
theorem sendOut_keeps (s : State) :
    (sendOut s).spd = s.spd ∧ (sendOut s).pos = s.pos ∧ (sendOut s).ren = s.ren ∧ (sendOut s).cfg = s.cfg ∧
      (sendOut s).returned = s.returned := by
  obtain ⟨u, ⟨-, hspd, hpos, hren, hcfg, hret, -⟩, ht⟩ := transmit_sameCore (advance s)
  simp [sendOut, settle_eq, ht, hspd, hpos, hren, hcfg, hret]

theorem sendOut_phase (s : State) : (sendOut s).phase = 1 := rfl

theorem sendOut_enc (s : State) : (sendOut s).enc = encAtRest := by
  rw [sendOut, settle_eq, advance_enc, transmit_enc]

theorem sendOut_trace (s : State) :
    trace (sendOut s) = trace s ++ frameSymbols s.cfg s.ren.pb ++ [.low s.cfg.tReset] := by
  have hwire : (sendOut s).wire = (transmit (advance s)).wire := by rw [sendOut, settle_eq, advance_wire]
  have htrace : trace (sendOut s) = trace (transmit (advance s)) := by rw [trace, trace, hwire]
  rw [htrace, transmit_trace, advance_cfg, advance_ren, trace, trace, advance_wire]

/-- Settles O51: the picture that lines 1 to 6 compose is the one that lines 7 and 8 send and leave in the buffer. -/
theorem frameSendsTheRenderedBuffer : Obligations.FrameSendsTheRenderedBuffer := by
  intro s
  obtain ⟨hwire, hcfg, hret⟩ : Unsent s (render (advance (prepare s))) :=
    (prepare_unsent s).trans <| (advance_unsent _).trans (render_unsent _)
  have hspd : (render (advance (prepare s))).spd = (prepare s).spd := by simp
  have hpos : (render (advance (prepare s))).pos = (prepare s).pos := by simp
  obtain ⟨kspd, kpos, kren, kcfg, kret⟩ := sendOut_keeps (render (advance (prepare s)))
  refine ⟨frame s, rfl, ?_⟩
  rw [frame_eq, kspd, kpos, kren, kcfg, kret, sendOut_trace, hspd, hpos, hcfg, hret, trace, trace, hwire]
  refine ⟨sendOut_phase _, rfl, fun i => readPixel_render_half _, fun hidle => ?_, fun hactive i hi => ?_,
    sendOut_enc _, rfl, rfl⟩
  · refine ⟨fun i hi => ?_, prepare_offset_of_idle hidle⟩
    rw [readPixel_render _ hi]
    exact renderedPixel_of_idle (by rw [advance_spd, hidle]) _
  · rw [readPixel_render _ hi]
    exact renderedPixel_of_active (by rw [advance_spd, hactive]) _

end Sys2Proof.Machine
end

section
/-! PROOFS for 10_state.md. The state unit by unit: what reset leaves in it, what each phase writes of it, and from that
the invariants that every step keeps; then what an operation leaves alone, and the boundary device's registers. -/

namespace Sys2Proof.Machine

/-! ### Reset (10_state.md R39) -/

/-- Settles O10: each row of the table is a field of the literal `State.reset`, and its empty buffer reads 0 at
every address. -/
theorem resetLeavesTheTableOfReset : Obligations.ResetLeavesTheTableOfReset :=
  ⟨rfl, rfl, rfl, rfl, rfl, rfl, rfl, rfl, rfl, rfl, rfl, rfl, rfl, rfl, rfl, rfl, fun _ _ => rfl, rfl, rfl⟩

/-- The invariants do not speak of the boundary device or the configuration, so they hold at reset for all of them. -/
theorem inv_reset (b : Bnd) (c : Config) : Inv { State.reset with bnd := b, cfg := c } where
  offset_below := (by decide : State.reset.pos.offset.toNat < posModulus)
  idle_speed _ := rfl
  phase_low := (by decide : 1 ≤ State.reset.phase.toNat)
  phase_high := (by decide : State.reset.phase.toNat ≤ 8)
  pix_idx := (by decide : State.reset.enc.pixIdx.toNat ≤ 53)
  line_low _ := rfl
  buffer_wf := Memory.wf_nil
  buffer_below := rfl

/-- Settles O11: the speed at reset is 0, below every bound. -/
theorem resetMeetsTheInvariants : Obligations.ResetMeetsTheInvariants := fun b c =>
  ⟨inv_reset b c, Nat.zero_le _⟩

/-! ### The primitives that read the boundary device (44_sequencer.md R128 to R130) -/

/-- Settles O53: `readCaptureEvent` answers `captureAnswer` on the acknowledged state. -/
theorem readCaptureAnswersAndClears : Obligations.ReadCaptureAnswersAndClears := fun _ => rfl

/-- Settles O54: of the two primitives only `readOverflowEvent` acknowledges. -/
theorem readOverflowClearsAndCounterDoesNot : Obligations.ReadOverflowClearsAndCounterDoesNot := fun _ =>
  ⟨rfl, rfl⟩

/-! ### The counter and the capture latch (10_state.md R31, R32, R33) -/

theorem applyEvent_tick_cnt (c : Config) (b : Bnd) :
    (applyEvent c b (.ticks 1)).cnt.toNat = (b.cnt.toNat + 1) % 65536 := by
  simp [applyEvent, BitVec.toNat_add]

/-- A single tick wraps from 65535 only. -/
theorem applyEvent_tick_ovfFlag (c : Config) (b : Bnd) :
    (applyEvent c b (.ticks 1)).ovfFlag = (b.ovfFlag || b.cnt == 65535) := by
  have hlt := b.cnt.isLt
  have hwrap : 65536 ≤ b.cnt.toNat + 1 ↔ b.cnt = 65535 := by
    rw [← BitVec.toNat_inj, show (65535 : U16).toNat = 65535 from rfl]
    omega
  simp only [applyEvent, cntPeriod, hwrap, beq_eq_decide]

/-- The counter passes its period within `n + 1` ticks just when it does within `n`, or stands at its last value then. -/
theorem wraps_succ_iff (cnt : U16) (n : Nat) :
    cntPeriod ≤ cnt.toNat + (n + 1) ↔
      cntPeriod ≤ cnt.toNat + n ∨ cntPeriod ≤ (cnt + BitVec.ofNat 16 n).toNat + 1 := by
  have hlt := cnt.isLt
  rw [BitVec.toNat_add, BitVec.toNat_ofNat]
  simp only [cntPeriod]
  omega

/-- Ticks compose: the last of `n + 1` ticks is a tick of its own. -/
theorem applyEvent_ticks_succ (c : Config) (b : Bnd) (n : Nat) :
    applyEvent c b (.ticks (n + 1)) = applyEvent c (applyEvent c b (.ticks n)) (.ticks 1) := by
  have hcnt : b.cnt + BitVec.ofNat 16 (n + 1) = b.cnt + BitVec.ofNat 16 n + BitVec.ofNat 16 1 := by
    rw [BitVec.ofNat_add, BitVec.add_assoc]
  have hovf : decide (cntPeriod ≤ b.cnt.toNat + (n + 1)) =
      (decide (cntPeriod ≤ b.cnt.toNat + n) || decide (cntPeriod ≤ (b.cnt + BitVec.ofNat 16 n).toNat + 1)) := by
    rw [← Bool.decide_or, decide_eq_decide]
    exact wraps_succ_iff b.cnt n
  rw [applyEvent, hcnt, hovf, ← Bool.or_assoc]
  rfl

/-- Settles O59: each edge latches the counter as it stands, so that the later of two (R32) leaves its own timestamp. -/
theorem counterWrapsAndEdgesLatch : Obligations.CounterWrapsAndEdgesLatch := fun c b n =>
  ⟨applyEvent_tick_cnt c b, applyEvent_tick_ovfFlag c b, applyEvent_ticks_succ c b n, rfl, rfl⟩

/-! ### What an operation leaves alone -/

theorem SameCore.spd_eq {s t : State} (h : SameCore s t) : t.spd = s.spd := by
  obtain ⟨-, hspd, -⟩ := h
  exact hspd

theorem SameCore.pos_eq {s t : State} (h : SameCore s t) : t.pos = s.pos := by
  obtain ⟨-, -, hpos, -⟩ := h
  exact hpos

theorem SameCore.ren_eq {s t : State} (h : SameCore s t) : t.ren = s.ren := by
  obtain ⟨-, -, -, hren, -⟩ := h
  exact hren

theorem SameCore.cfg_eq {s t : State} (h : SameCore s t) : t.cfg = s.cfg := by
  obtain ⟨-, -, -, -, hcfg, -⟩ := h
  exact hcfg

/-! TRANSMIT writes no register of SPD, POS or REN, and no configuration. -/

@[simp] theorem transmit_spd (s : State) : (transmit s).spd = s.spd := by
  obtain ⟨u, hu, ht⟩ := transmit_sameCore s
  rw [ht, goPhase_spd, hu.spd_eq]

@[simp] theorem transmit_pos (s : State) : (transmit s).pos = s.pos := by
  obtain ⟨u, hu, ht⟩ := transmit_sameCore s
  rw [ht, goPhase_pos, hu.pos_eq]

@[simp] theorem transmit_ren (s : State) : (transmit s).ren = s.ren := by
  obtain ⟨u, hu, ht⟩ := transmit_sameCore s
  rw [ht, goPhase_ren, hu.ren_eq]

@[simp] theorem transmit_cfg (s : State) : (transmit s).cfg = s.cfg := by
  obtain ⟨u, hu, ht⟩ := transmit_sameCore s
  rw [ht, goPhase_cfg, hu.cfg_eq]

/-- The configuration stands through FRAME: neither the part that composes the picture nor the part that sends it
writes it. -/
theorem frame_cfg (s : State) : (frame s).cfg = s.cfg := by
  obtain ⟨-, -, -, hsend, -⟩ := sendOut_keeps (render (advance (prepare s)))
  obtain ⟨-, hcompose, -⟩ : Unsent s (render (advance (prepare s))) :=
    (prepare_unsent s).trans <| (advance_unsent _).trans (render_unsent _)
  rw [frame_eq, hsend, hcompose]

theorem eq_of_next {u t : State} (h : (.next u : Result) = .next t) : t = u :=
  (Host.Outcome.next.inj h).symm

/-- The operations built from loops and waits keep the configuration by their own lemmas; every other meaning is a record
update that does not name it. -/
theorem exec_cfg {i : Instr} {s t : State} (h : exec i s = .next t) : t.cfg = s.cfg := by
  cases i with
  | sym0 => rw [eq_of_next h, (sendSym_sameCore _ _).cfg_eq]
  | sym1 => rw [eq_of_next h, (sendSym_sameCore _ _).cfg_eq]
  | byte v => rw [eq_of_next h, sendByte_cfg]
  | pixel g r b w => rw [eq_of_next h, sendPixel_cfg]
  | pixelAt k => rw [eq_of_next h, sendPixelAt_cfg]
  | latch => rw [eq_of_next h, (holdLatch_sameCore _).cfg_eq]
  | clear => rw [eq_of_next h, clear, goPhase_cfg, withBuffer_cfg]
  | transmit => rw [eq_of_next h, transmit_cfg]
  | settle => rw [eq_of_next h, settle_eq]
  | frame => rw [eq_of_next (u := frame s) h, frame_cfg]
  | delay us => rw [eq_of_next (u := delayFor us s) h, delayFor, passTime_cfg]
  | _ => rw [eq_of_next h]; rfl

/-- Settles O15: the case split over the operations is `exec_cfg`. -/
theorem noOperationWritesTheConfiguration : Obligations.NoOperationWritesTheConfiguration := fun _ _ _ => exec_cfg

/-- Besides FRAME, only CAP.ACCEPT and OVF.TIMEOUT write the mode. -/
theorem exec_mode {i : Instr} {s t : State} (h : exec i s = .next t) (hframe : i ≠ .frame) (haccept : i ≠ .capAccept)
    (htimeout : i ≠ .ovfTimeout) : t.spd.mode = s.spd.mode := by
  cases i with
  | frame => exact absurd rfl hframe
  | capAccept => exact absurd rfl haccept
  | ovfTimeout => exact absurd rfl htimeout
  | sym0 => rw [eq_of_next h, (sendSym_sameCore _ _).spd_eq]
  | sym1 => rw [eq_of_next h, (sendSym_sameCore _ _).spd_eq]
  | byte v => rw [eq_of_next h, (sendByte_sameCore _ _).spd_eq]
  | pixel g r b w => rw [eq_of_next h, (sendPixel_sameCore _ _).spd_eq]
  | pixelAt k => rw [eq_of_next h, (sendPixelAt_sameCore _ _).spd_eq]
  | latch => rw [eq_of_next h, (holdLatch_sameCore _).spd_eq]
  | transmit => rw [eq_of_next h, transmit_spd]
  | settle => rw [eq_of_next h, settle_eq]
  | delay us => rw [eq_of_next (u := delayFor us s) h, delayFor, passTime_spd]
  | _ => rw [eq_of_next h]; rfl

theorem capAccept_mode (s : State) : (capAccept s).spd.mode = .active := rfl

theorem ovfTimeout_mode (s : State) : (ovfTimeout s).spd.mode = .idle := rfl

/-- Settles O23: CAP.ACCEPT ends in Active, OVF.TIMEOUT in Idle, and no other operation writes the mode. -/
theorem onlyTimeoutAndAcceptChangeTheMode : Obligations.OnlyTimeoutAndAcceptChangeTheMode := by
  intro i s t hframe h
  by_cases haccept : i = .capAccept
  · subst haccept
    rw [eq_of_next h]
    exact ⟨fun _ hidle => absurd hidle (by simp [capAccept_mode]), fun _ _ => rfl⟩
  by_cases htimeout : i = .ovfTimeout
  · subst htimeout
    rw [eq_of_next h]
    exact ⟨fun _ _ => rfl, fun _ hactive => absurd hactive (by simp [ovfTimeout_mode])⟩
  have hmode := exec_mode h hframe haccept htimeout
  exact ⟨fun hs ht => absurd (hs.symm.trans (hmode.symm.trans ht)) (by decide),
    fun hs ht => absurd (hs.symm.trans (hmode.symm.trans ht)) (by decide)⟩

/-! ### The operation of a step (30_encoding.md R63, R64) -/

theorem step_of_fetch {s : State} {i : Instr} (h : fetch (advance s) = .ok i) : step s = exec i (advance s) := by
  unfold step
  rw [h]

/-- A step that answers a next state performed some operation where the boundary device has run on to. -/
theorem exec_of_step {s t : State} (h : step s = .next t) : ∃ i, exec i (advance s) = .next t := by
  cases hf : fetch (advance s) with
  | ok i => exact ⟨i, by rw [← step_of_fetch hf, h]⟩
  | error e =>
    unfold step at h
    rw [hf] at h
    cases h

theorem step_cfg {s t : State} (h : step s = .next t) : t.cfg = s.cfg := by
  obtain ⟨i, hi⟩ := exec_of_step h
  rw [exec_cfg hi, advance_cfg]

/-- Of a pending capture the debounce threshold alone decides. -/
theorem accept_eq_true_iff {s : State} (h : s.bnd.capFlag = true) :
    accept s = true ↔ s.cfg.debounceTicks ≤ capturePeriod s := by
  simp [accept, capValid, h, period_toNat, capturePeriod]

theorem timeout_eq_true_iff (s : State) :
    timeout s = true ↔ s.spd.capSeen = false ∧ s.spd.mode = .active ∧ 65536 < s.spd.since.toNat := by
  simp [timeout, idleTimeoutTicks, and_assoc]

/-! The step of each phase, its qualifiers in plain numbers. -/

section
variable {s : State}

theorem step_of_phase_one (h : s.phase = 1) :
    step s = exec (if (advance s).bnd.capFlag = true then
      (if s.cfg.debounceTicks ≤ capturePeriod (advance s) then .capAccept else .capReject) else .capNone)
      (advance s) := by
  apply step_of_fetch
  by_cases hflag : (advance s).bnd.capFlag = true
  · simp [fetch_cases, h, capValid, hflag, accept_eq_true_iff hflag]
  · simp [fetch_cases, h, capValid, hflag]

theorem step_of_phase_two (h : s.phase = 2) :
    step s = exec (if (advance s).bnd.ovfFlag = true then
      (if s.spd.capSeen = false ∧ s.spd.mode = .active ∧ 65536 < s.spd.since.toNat then .ovfTimeout else .ovfTick)
      else .ovfNone) (advance s) :=
  step_of_fetch (by simp [fetch_cases, h, ovf, timeout_eq_true_iff])

theorem step_of_phase_three (h : s.phase = 3) : step s = exec .elapsed (advance s) :=
  step_of_fetch (by simp [fetch_cases, h])

theorem step_of_phase_four (h : s.phase = 4) :
    step s = exec (if s.spd.mode = .idle then .advHold else .advRun) (advance s) :=
  step_of_fetch (by simp [fetch_cases, h, idle_eq_true_iff])

theorem step_of_phase_five (h : s.phase = 5) : step s = exec .clear (advance s) :=
  step_of_fetch (by simp [fetch_cases, h])

theorem step_of_phase_six (h : s.phase = 6) :
    step s = exec (if s.spd.mode = .idle then .renderIdle else .renderActive) (advance s) :=
  step_of_fetch (by simp [fetch_cases, h, idle_eq_true_iff])

theorem step_of_phase_seven (h : s.phase = 7) : step s = exec .transmit (advance s) :=
  step_of_fetch (by simp [fetch_cases, h])

theorem step_of_phase_eight (h : s.phase = 8) : step s = exec .settle (advance s) :=
  step_of_fetch (by simp [fetch_cases, h])

end

/-- Settles O6: each clause takes one branch of its phase's step. -/
theorem stepPerformsTheSelectedOutcome : Obligations.StepPerformsTheSelectedOutcome := by
  intro s u
  refine ⟨fun hp hflag => ?_, fun hp hflag hperiod => ?_, fun hp hflag hperiod => ?_,
    fun hp hflag => ?_, fun hp hflag htimeout => ?_, fun hp hflag htimeout => ?_,
    step_of_phase_three, fun hp hmode => ?_, fun hp hmode => ?_, step_of_phase_five,
    fun hp hmode => ?_, fun hp hmode => ?_, step_of_phase_seven, step_of_phase_eight⟩
  · rw [step_of_phase_one hp, if_neg (ne_true_of_eq_false hflag)]
  · rw [step_of_phase_one hp, if_pos hflag, if_neg (Nat.not_le.mpr hperiod)]
  · rw [step_of_phase_one hp, if_pos hflag, if_pos hperiod]
  · rw [step_of_phase_two hp, if_neg (ne_true_of_eq_false hflag)]
  · rw [step_of_phase_two hp, if_pos hflag, if_neg htimeout]
  · rw [step_of_phase_two hp, if_pos hflag, if_pos htimeout]
  · rw [step_of_phase_four hp, if_neg (by rw [hmode]; decide)]
  · rw [step_of_phase_four hp, if_pos hmode]
  · rw [step_of_phase_six hp, if_neg (by rw [hmode]; decide)]
  · rw [step_of_phase_six hp, if_pos hmode]

/-! ### What each phase writes, unit by unit -/

/-! The phase register (44_sequencer.md R124). -/

@[simp] theorem pollCapture_phase (s : State) : (pollCapture s).phase = 2 := by
  unfold pollCapture
  split_ifs <;> rfl

@[simp] theorem pollOverflow_phase (s : State) : (pollOverflow s).phase = 3 := by
  unfold pollOverflow
  split_ifs <;> rfl

@[simp] theorem elapsed_phase (s : State) : (elapsed s).phase = 4 := rfl

@[simp] theorem integrate_phase (s : State) : (integrate s).phase = 5 := by
  unfold integrate
  split_ifs <;> rfl

@[simp] theorem clear_phase (s : State) : (clear s).phase = 6 := rfl

@[simp] theorem render_phase (s : State) : (render s).phase = 7 := by
  unfold render
  split_ifs <;> rfl

@[simp] theorem transmit_phase (s : State) : (transmit s).phase = 8 := rfl

@[simp] theorem settle_phase (s : State) : (settle s).phase = 1 := rfl

/-- A step moves the phase register on to the next phase of the cycle. -/
theorem step_phase {s t : State} (h : step s = .next t) :
    t.phase.toNat = if s.phase.toNat = 8 then 1 else s.phase.toNat + 1 := by
  rcases step_cases h with ⟨hp, rfl⟩ | ⟨hp, rfl⟩ | ⟨hp, rfl⟩ | ⟨hp, rfl⟩ | ⟨hp, rfl⟩ | ⟨hp, rfl⟩ | ⟨hp, rfl⟩ | ⟨hp, rfl⟩ <;>
    simp [hp]

/-! The encoder: TRANSMIT alone uses it, and leaves it at rest (10_state.md R27 to R29). -/

@[simp] theorem pollCapture_enc (s : State) : (pollCapture s).enc = s.enc := by
  unfold pollCapture
  split_ifs <;> rfl

@[simp] theorem pollOverflow_enc (s : State) : (pollOverflow s).enc = s.enc := by
  unfold pollOverflow
  split_ifs <;> rfl

@[simp] theorem elapsed_enc (s : State) : (elapsed s).enc = s.enc := rfl

@[simp] theorem integrate_enc (s : State) : (integrate s).enc = s.enc := by
  unfold integrate
  split_ifs <;> rfl

@[simp] theorem clear_enc (s : State) : (clear s).enc = s.enc := by simp [clear]

@[simp] theorem render_enc (s : State) : (render s).enc = s.enc := by
  unfold render
  split_ifs <;> rfl

@[simp] theorem settle_enc (s : State) : (settle s).enc = s.enc := by rw [settle_eq]

theorem step_enc {s t : State} (h : step s = .next t) : t.enc = if s.phase = 7 then encAtRest else s.enc := by
  rcases step_cases h with ⟨hp, rfl⟩ | ⟨hp, rfl⟩ | ⟨hp, rfl⟩ | ⟨hp, rfl⟩ | ⟨hp, rfl⟩ | ⟨hp, rfl⟩ | ⟨hp, rfl⟩ | ⟨hp, rfl⟩ <;>
    simp [hp, transmit_enc]

/-- Settles O14: seven of the phases leave the encoder as it was, and TRANSMIT ends with it at rest. -/
theorem encoderRestsBetweenPhases : Obligations.EncoderRestsBetweenPhases := by
  refine ⟨rfl, fun s t hs h => ?_⟩
  rw [step_enc h, hs, ite_self]

/-! The Pixel Buffer: CLEAR and the render mux write it. -/

@[simp] theorem pollCapture_pb (s : State) : (pollCapture s).ren.pb = s.ren.pb := by
  unfold pollCapture
  split_ifs <;> rfl

@[simp] theorem pollOverflow_pb (s : State) : (pollOverflow s).ren.pb = s.ren.pb := by
  unfold pollOverflow
  split_ifs <;> rfl

@[simp] theorem elapsed_pb (s : State) : (elapsed s).ren.pb = s.ren.pb := rfl

@[simp] theorem integrate_pb (s : State) : (integrate s).ren.pb = s.ren.pb := by
  unfold integrate
  split_ifs <;> rfl

@[simp] theorem clear_pb (s : State) : (clear s).ren.pb = clearBuffer s.ren.pb := by simp [clear]

@[simp] theorem settle_ren (s : State) : (settle s).ren = s.ren := by rw [settle_eq]

theorem step_pb {s t : State} (h : step s = .next t) :
    t.ren.pb = if s.phase = 5 then clearBuffer s.ren.pb
      else if s.phase = 6 then drawHalves (renderedPixel (advance s)) s.ren.pb else s.ren.pb := by
  rcases step_cases h with ⟨hp, rfl⟩ | ⟨hp, rfl⟩ | ⟨hp, rfl⟩ | ⟨hp, rfl⟩ | ⟨hp, rfl⟩ | ⟨hp, rfl⟩ | ⟨hp, rfl⟩ | ⟨hp, rfl⟩ <;>
    simp [hp, render_pb]

theorem step_keeps_buffer {s t : State} (h : step s = .next t) (hwf : s.ren.pb.wf = true)
    (hbelow : s.ren.pb.below frameBytes = true) : t.ren.pb.wf = true ∧ t.ren.pb.below frameBytes = true := by
  rw [step_pb h]
  split_ifs
  · exact clearBuffer_keeps hwf hbelow
  · exact drawHalves_keeps _ hwf hbelow
  · exact ⟨hwf, hbelow⟩

/-! The Position Offset: ADV.RUN writes it. -/

theorem wrapOffset_lt (offset : U32) (inc : Nat) : (wrapOffset offset inc).toNat < posModulus := by
  rw [wrapOffset_toNat]
  exact Nat.mod_lt _ (by decide)

theorem integrate_offset (s : State) :
    (integrate s).pos.offset = if s.spd.mode = .idle then s.pos.offset
      else wrapOffset s.pos.offset (posIncrement s.cfg s.pos.elapsed s.spd.speed) := by
  simp only [integrate, idle_eq_true_iff]
  split_ifs <;> rfl

@[simp] theorem settle_pos (s : State) : (settle s).pos = s.pos := by rw [settle_eq]

theorem step_offset {s t : State} (h : step s = .next t) :
    t.pos.offset = if s.phase = 4 ∧ s.spd.mode ≠ .idle
      then wrapOffset s.pos.offset (posIncrement s.cfg s.pos.elapsed s.spd.speed) else s.pos.offset := by
  rcases step_cases h with ⟨hp, rfl⟩ | ⟨hp, rfl⟩ | ⟨hp, rfl⟩ | ⟨hp, rfl⟩ | ⟨hp, rfl⟩ | ⟨hp, rfl⟩ | ⟨hp, rfl⟩ | ⟨hp, rfl⟩ <;>
    simp [hp, integrate_offset]

theorem step_offset_lt {s t : State} (h : step s = .next t) (hs : s.pos.offset.toNat < posModulus) :
    t.pos.offset.toNat < posModulus := by
  rw [step_offset h]
  split_ifs
  · exact wrapOffset_lt _ _
  · exact hs

/-! The speed and the mode, which stand together: in Idle the speed is 0 (10_state.md R40). An accepted capture filters
the speed, a timeout sets it to 0, and nothing else writes either. -/

/-- The speed that CAP.ACCEPT leaves (41_speed_estimator.md R89, R91). -/
def filteredSpeed (s : State) : U32 := smooth s.spd.speed (instSpeed s.cfg (period s.bnd.capLatch s.spd.lastTs))

theorem pollCapture_speed_mode (s : State) :
    ((pollCapture s).spd.speed = s.spd.speed ∧ (pollCapture s).spd.mode = s.spd.mode) ∨
      (accept s = true ∧ (pollCapture s).spd.speed = filteredSpeed s ∧ (pollCapture s).spd.mode = .active) := by
  unfold pollCapture
  split_ifs with hvalid haccept
  · exact .inr ⟨haccept, rfl, rfl⟩
  · exact .inl ⟨rfl, rfl⟩
  · exact .inl ⟨rfl, rfl⟩

theorem pollOverflow_speed_mode (s : State) :
    ((pollOverflow s).spd.speed = s.spd.speed ∧ (pollOverflow s).spd.mode = s.spd.mode) ∨
      ((pollOverflow s).spd.speed = 0 ∧ (pollOverflow s).spd.mode = .idle) := by
  unfold pollOverflow
  split_ifs
  · exact .inr ⟨rfl, rfl⟩
  · exact .inl ⟨rfl, rfl⟩
  · exact .inl ⟨rfl, rfl⟩

@[simp] theorem elapsed_speed (s : State) : (elapsed s).spd.speed = s.spd.speed := rfl

@[simp] theorem elapsed_mode (s : State) : (elapsed s).spd.mode = s.spd.mode := rfl

@[simp] theorem settle_spd (s : State) : (settle s).spd = s.spd := by rw [settle_eq]

/-- What a step can do to the speed and the mode. -/
theorem step_speed_mode {s t : State} (h : step s = .next t) :
    (t.spd.speed = s.spd.speed ∧ t.spd.mode = s.spd.mode) ∨
      (accept (advance s) = true ∧ t.spd.speed = filteredSpeed (advance s) ∧ t.spd.mode = .active) ∨
      (t.spd.speed = 0 ∧ t.spd.mode = .idle) := by
  rcases step_cases h with ⟨-, rfl⟩ | ⟨-, rfl⟩ | ⟨-, rfl⟩ | ⟨-, rfl⟩ | ⟨-, rfl⟩ | ⟨-, rfl⟩ | ⟨-, rfl⟩ | ⟨-, rfl⟩
  case inl =>
    rcases pollCapture_speed_mode (advance s) with hkeep | haccept
    · exact .inl (by simpa using hkeep)
    · exact .inr (.inl haccept)
  case inr.inl =>
    rcases pollOverflow_speed_mode (advance s) with hkeep | htimeout
    · exact .inl (by simpa using hkeep)
    · exact .inr (.inr htimeout)
  all_goals exact .inl (by simp)

/-- Settles O12: each clause of the invariant speaks of one unit, and what a step writes of that unit keeps it. -/
theorem everyStepKeepsTheInvariants : Obligations.EveryStepKeepsTheInvariants := by
  intro s t hs h
  obtain ⟨hwf, hbelow⟩ := step_keeps_buffer h hs.buffer_wf hs.buffer_below
  have hphase := step_phase h
  have hlow := hs.phase_low
  have hhigh := hs.phase_high
  constructor
  case offset_below => exact step_offset_lt h hs.offset_below
  case idle_speed =>
    intro hidle
    rcases step_speed_mode h with ⟨hspeed, hmode⟩ | ⟨-, -, hactive⟩ | ⟨hspeed, -⟩
    · rw [hspeed, hs.idle_speed (hmode ▸ hidle)]
    · exact absurd (hactive.symm.trans hidle) (by decide)
    · exact hspeed
  case phase_low => split_ifs at hphase <;> omega
  case phase_high => split_ifs at hphase <;> omega
  case pix_idx =>
    rw [step_enc h]
    split_ifs
    · decide
    · exact hs.pix_idx
  case line_low =>
    rw [step_enc h]
    split_ifs
    · exact fun _ => rfl
    · exact hs.line_low
  case buffer_wf => exact hwf
  case buffer_below => exact hbelow

/-! ### The bound of the speed (41_speed_estimator.md R97 (a)) -/

/-- The instantaneous speed falls with the period, so at or above the debounce threshold it is at most that of the
threshold. -/
theorem instSpeed_le_speedBound (c : Config) {per : U16} (h : c.debounceTicks ≤ per.toNat) :
    (instSpeed c per).toNat ≤ speedBound c := by
  obtain ⟨hdebounce, -, hrev, -⟩ := config_bounds c
  rw [instSpeed_toNat c (by omega)]
  exact Nat.div_le_div_left (Nat.mul_le_mul_right _ h) (Nat.mul_pos hdebounce hrev)

/-- The filter does not leave a bound that both of its inputs meet. -/
theorem smooth_le {speed inst : U32} {bound : Nat} (hspeed : speed.toNat ≤ bound) (hinst : inst.toNat ≤ bound) :
    (smooth speed inst).toNat ≤ bound := by
  rw [smooth_toNat]
  omega

theorem filteredSpeed_le_speedBound {s : State} (haccept : accept s = true)
    (hspeed : s.spd.speed.toNat ≤ speedBound s.cfg) : (filteredSpeed s).toNat ≤ speedBound s.cfg := by
  have hperiod : s.cfg.debounceTicks ≤ capturePeriod s :=
    (accept_eq_true_iff (accept_capValid s haccept)).mp haccept
  exact smooth_le hspeed (instSpeed_le_speedBound s.cfg (by rwa [period_toNat]))

/-- Settles O13: the only step that raises the speed filters it with the speed of an accepted period. -/
theorem everyStepKeepsTheSpeedBound : Obligations.EveryStepKeepsTheSpeedBound := by
  intro s t hs h
  rw [step_cfg h]
  rcases step_speed_mode h with ⟨hspeed, -⟩ | ⟨haccept, hspeed, -⟩ | ⟨hspeed, -⟩
  · rw [hspeed]
    exact hs
  · rw [hspeed, ← advance_cfg s]
    exact filteredSpeed_le_speedBound haccept (by simpa using hs)
  · rw [hspeed]
    exact Nat.zero_le _

end Sys2Proof.Machine
end

section
/-! PROOFS for 20_memory.md. What the micro-operations read of the Pixel Buffer and of the Lookup Table, what every
operation writes of the buffer, and why nothing of it is shared across frames. -/

namespace Sys2Proof.Machine

/-! ### GETPIX and SETPIX (20_memory.md R43 to R45, R47) -/

/-- GETPIX in the words of the claims: its clamp is the nearest valid pixel. -/
theorem exec_getPix (i : Int) (s : State) :
    exec (.getPix i) s = .next (answer (.pixel (readPixel s.ren.pb (nearestPixel i))) s) := by
  rw [← clampIndex_eq_nearestPixel]
  rfl

/-- Settles O32: answering writes the field `returned` and no other. -/
theorem getPixAnswersTheNearestPixel : Obligations.GetPixAnswersTheNearestPixel := fun s i => exec_getPix i s

theorem nearestPixel_of_valid {i : Int} (hlow : 0 ≤ i) (hhigh : i ≤ 53) : (nearestPixel i : Int) = i := by
  unfold nearestPixel
  rw [if_neg (Int.not_lt.mpr hlow), if_neg (Int.not_lt.mpr hhigh), Int.toNat_of_nonneg hlow]

theorem readPixel_setPixel (m : Memory) (i : Int) (j : Nat) (p : Pixel) :
    readPixel (setPixel m i p) j = if j = nearestPixel i then p else readPixel m j := by
  rw [setPixel, readPixel_writePixel, clampIndex_eq_nearestPixel]

/-- Settles O33: GETPIX before and after SETPIX reads the same nearest pixel, which is the one written just when
the valid index `i` is nearest to `j`. -/
theorem setPixThenGetPixReturnsTheSame : Obligations.SetPixThenGetPixReturnsTheSame := by
  intro s t i j g r b w hlow hhigh h
  have ht : t.ren.pb = setPixel s.ren.pb i ⟨g, r, b, w⟩ := by rw [eq_of_next h, withBuffer_ren]
  have hindex : nearestPixel j = nearestPixel i ↔ (nearestPixel j : Int) = i := by
    rw [← Int.natCast_inj, nearestPixel_of_valid hlow hhigh]
  refine ⟨_, _, exec_getPix j s, exec_getPix j t, ?_⟩
  simp only [answer_returned, ht, readPixel_setPixel, hindex, apply_ite Returned.pixel]

/-! ### LUTW (20_memory.md R46) -/

/-- Inside the window LUTW's default is never taken: a legal table has all 216 entries. -/
theorem getElem?_lut (c : Config) {k : Nat} (h : k < 216) : c.lut[k]? = some (lutWindow c k) := by
  obtain ⟨-, -, -, -, -, -, -, hlength, -⟩ := config_bounds c
  have hk : k < c.lut.length := by omega
  rw [lutWindow, if_pos (by omega), Int.toNat_natCast, List.getD_eq_getElem _ _ hk, List.getElem?_eq_getElem hk]

theorem lutWindow_of_outside (c : Config) {j : Int} (h : j < 0 ∨ 215 < j) : lutWindow c j = 0 :=
  if_neg (by omega)

/-- Settles O34: the byte is `lutWindow`, inside the table by its length and 0 outside it. -/
theorem lutWReadsTheWindow : Obligations.LutWReadsTheWindow := by
  intro s j
  refine ⟨lutWindow s.cfg j, rfl, ?_, lutWindow_of_outside s.cfg⟩
  rintro k rfl hk
  exact getElem?_lut s.cfg hk

/-! ### Nothing outside the buffer (20_memory.md R41, R47) -/

/-- The buffer after an operation: SETPIX, CLEAR, the renders and FRAME write it, and no other operation does. -/
def bufferAfter (i : Instr) (s : State) : Memory :=
  match i with
  | .setPix k g r b w => setPixel s.ren.pb k ⟨g, r, b, w⟩
  | .clear => clearBuffer s.ren.pb
  | .renderActive => drawHalves (rainbowPixel s.cfg s.pos.offset) s.ren.pb
  | .renderIdle => drawHalves (idlePixel s.cfg s.ren.idleTime) s.ren.pb
  | .frame => drawHalves (renderedPixel (prepare s)) (clearBuffer s.ren.pb)
  | _ => s.ren.pb

theorem renderedPixel_advance (s : State) : renderedPixel (advance s) = renderedPixel s := by
  funext p
  simp only [renderedPixel, advance_spd, advance_cfg, advance_ren, advance_pos]

theorem prepare_pb (s : State) : (prepare s).ren.pb = clearBuffer s.ren.pb := by simp [prepare, measure]

/-- FRAME leaves the picture drawn on the cleared buffer. -/
theorem frame_pb (s : State) :
    (frame s).ren.pb = drawHalves (renderedPixel (prepare s)) (clearBuffer s.ren.pb) := by
  obtain ⟨-, -, hren, -⟩ := sendOut_keeps (render (advance (prepare s)))
  rw [frame_eq, hren, render_pb, renderedPixel_advance, advance_ren, prepare_pb]

/-- The operations outside `bufferAfter` keep the buffer: those that send by `SameCore`, the others because their record
updates do not name it. -/
theorem exec_pb {i : Instr} {s t : State} (h : exec i s = .next t) : t.ren.pb = bufferAfter i s := by
  cases i with
  | sym0 => rw [eq_of_next h, (sendSym_sameCore _ _).ren_eq]; rfl
  | sym1 => rw [eq_of_next h, (sendSym_sameCore _ _).ren_eq]; rfl
  | byte v => rw [eq_of_next h, (sendByte_sameCore _ _).ren_eq]; rfl
  | pixel g r b w => rw [eq_of_next h, (sendPixel_sameCore _ _).ren_eq]; rfl
  | pixelAt k => rw [eq_of_next h, (sendPixelAt_sameCore _ _).ren_eq]; rfl
  | latch => rw [eq_of_next h, (holdLatch_sameCore _).ren_eq]; rfl
  | clear => rw [eq_of_next h, clear_pb]; rfl
  | transmit => rw [eq_of_next h, transmit_ren]; rfl
  | settle => rw [eq_of_next h, settle_ren]; rfl
  | frame => rw [eq_of_next (u := frame s) h, frame_pb]; rfl
  | _ => rw [eq_of_next h]; rfl

theorem setPixel_keeps (i : Int) (p : Pixel) {m : Memory} (h : m.wf = true) (hb : m.below frameBytes = true) :
    (setPixel m i p).wf = true ∧ (setPixel m i p).below frameBytes = true :=
  ⟨wf_writePixel _ p h, below_writePixel p (Nat.lt_succ_of_le (clampIndex_le i)) hb⟩

/-- Settles O16: SETPIX's clamp, CLEAR's loop and a render's loop each keep inside the buffer. -/
theorem noOperationLeavesTheBuffer : Obligations.NoOperationLeavesTheBuffer := by
  intro i s t h hwf hbelow
  rw [exec_pb h]
  cases i with
  | setPix k g r b w => exact setPixel_keeps k _ hwf hbelow
  | clear => exact clearBuffer_keeps hwf hbelow
  | renderActive => exact drawHalves_keeps _ hwf hbelow
  | renderIdle => exact drawHalves_keeps _ hwf hbelow
  | frame =>
    obtain ⟨hwf', hbelow'⟩ := clearBuffer_keeps hwf hbelow
    exact drawHalves_keeps _ hwf' hbelow'
  | _ => exact ⟨hwf, hbelow⟩

/-! ### Nothing shared across frames (20_memory.md R52) -/

/-- A render writes each of the 54 pixels, so what it draws on does not show. -/
theorem read_drawHalves_eq (pix : Nat → Pixel) (m n : Memory) {a : Nat} (h : a < 216) :
    (drawHalves pix m).read a = (drawHalves pix n).read a := by
  apply read_of_readPixel
  rw [readPixel_drawHalves, readPixel_drawHalves]
  have hpixel : a / 4 < 54 := by omega
  simp only [if_pos hpixel]

theorem step_pb_of_phase_six {s t : State} (hp : s.phase = 6) (h : step s = .next t) :
    t.ren.pb = drawHalves (renderedPixel s) s.ren.pb := by
  rw [step_pb h, if_neg (by rw [hp]; decide), if_pos hp, renderedPixel_advance]

/-- The picture is a function of the mode, the idle accumulator and the offset, not of the buffer. -/
theorem renderedPixel_withBuffer (m : Memory) (s : State) : renderedPixel (withBuffer m s) = renderedPixel s := rfl

/-- Settles O40: the two steps draw the same pixels, on buffers that do not show. -/
theorem rendersOverwriteTheWholeBuffer : Obligations.RendersOverwriteTheWholeBuffer := by
  intro s t t' m hp h h' a ha
  have ht' : t'.ren.pb = drawHalves (renderedPixel s) m := by
    rw [step_pb_of_phase_six (s := withBuffer m s) hp h', renderedPixel_withBuffer, withBuffer_ren]
  rw [step_pb_of_phase_six hp h, ht']
  exact read_drawHalves_eq (renderedPixel s) m s.ren.pb ha

end Sys2Proof.Machine
end

section
/-! PROOFS for 30_encoding.md. What the encoder's bits decode to, how the operation map selects, where a step faults, what
each wire operation sends, and what a receiver of the wire reads. -/

namespace Sys2Proof.Machine

/-! ### Bytes (30_encoding.md R55) -/

theorem length_bytesOfNumber : ∀ n w, (bytesOfNumber n w).length = n
  | 0, _ => rfl
  | n + 1, w => by rw [bytesOfNumber, List.length_cons, length_bytesOfNumber n]

/-- So many bytes hold the number modulo that many powers of 256. -/
theorem numberOfBytes_bytesOfNumber : ∀ n w, numberOfBytes (bytesOfNumber n w) = w % 256 ^ n
  | 0, w => by rw [pow_zero, Nat.mod_one]; rfl
  | n + 1, w => by
    rw [bytesOfNumber, numberOfBytes, numberOfBytes_bytesOfNumber n, BitVec.toNat_ofNat, pow_succ' 256,
      Nat.mod_mul (a := 256)]

/-- The bytes of a channel have room for its bits. -/
theorem two_pow_width_le (c : Channel) : 2 ^ c.width ≤ 256 ^ c.bytes := by
  rw [show 256 = 2 ^ 8 from rfl, ← pow_mul]
  exact Nat.pow_le_pow_right (by decide) (by unfold Channel.bytes; omega)

/-- Bits that fit a channel, sent as its bytes, are neither too few nor padded, and decode as themselves. -/
theorem decode_bytesOfNumber {c : Channel} {w : Nat} (h : w < 2 ^ c.width) :
    decode c (bytesOfNumber c.bytes w) = decodeBits c w := by
  have hnumber : numberOfBytes (bytesOfNumber c.bytes w) = w := by
    rw [numberOfBytes_bytesOfNumber, Nat.mod_eq_of_lt (h.trans_le (two_pow_width_le c))]
  rw [decode, hnumber, if_neg (not_not_intro (length_bytesOfNumber _ _)), if_neg (Nat.not_le.mpr h)]

/-! ### The fields of a word (30_encoding.md R56 to R58, R65, R66) -/

theorem ofNat_eq_byte {w : Nat} {v : Byte} (h : w % 256 = v.toNat) : BitVec.ofNat 8 w = v :=
  BitVec.eq_of_toNat_eq (by rw [BitVec.toNat_ofNat, ← h])

/-- The four bytes of a word whatever stands above them: the field layout that PIXEL and SETPIX share. -/
theorem bytes_of_word (high : Nat) (g r b w : Byte) :
    let n := high * 2 ^ 32 + g.toNat * 2 ^ 24 + r.toNat * 2 ^ 16 + b.toNat * 2 ^ 8 + w.toNat
    n / 2 ^ 32 = high ∧ BitVec.ofNat 8 (n / 2 ^ 24) = g ∧ BitVec.ofNat 8 (n / 2 ^ 16) = r ∧
      BitVec.ofNat 8 (n / 2 ^ 8) = b ∧ BitVec.ofNat 8 n = w := by
  intro n
  have hg := g.isLt
  have hr := r.isLt
  have hb := b.isLt
  have hw := w.isLt
  exact ⟨by omega, ofNat_eq_byte (by omega), ofNat_eq_byte (by omega), ofNat_eq_byte (by omega),
    ofNat_eq_byte (by omega)⟩

/-- A signed 8-bit field holds the integers -128..127. -/
theorem toInt_pixelIndex {i : Int} (h : fitsPixelIndex i = true) :
    (BitVec.ofNat 8 (BitVec.ofInt 8 i).toNat).toInt = i := by
  simp only [fitsPixelIndex, Bool.and_eq_true, decide_eq_true_eq] at h
  obtain ⟨hlow, hhigh⟩ := h
  rw [BitVec.ofNat_toNat, BitVec.setWidth_eq]
  exact BitVec.toInt_ofInt_eq_self (by decide) hlow (by omega)

/-- A signed 11-bit field holds the integers -1024..1023. -/
theorem toInt_tableIndex {j : Int} (h : fitsTableIndex j = true) :
    (BitVec.ofNat 11 (BitVec.ofInt 11 j).toNat).toInt = j := by
  simp only [fitsTableIndex, Bool.and_eq_true, decide_eq_true_eq] at h
  obtain ⟨hlow, hhigh⟩ := h
  rw [BitVec.ofNat_toNat, BitVec.setWidth_eq]
  exact BitVec.toInt_ofInt_eq_self (by decide) hlow (by omega)

theorem encodeBits_fits : ∀ i, Laws.EncodingFits.Statement i
  | .sym0 => Laws.EncodingFits.sym0
  | .sym1 => Laws.EncodingFits.sym1
  | .byte v => Laws.EncodingFits.byte v
  | .pixel g r b w => Laws.EncodingFits.pixel g r b w
  | .pixelAt i => Laws.EncodingFits.pixelAt i
  | .latch => Laws.EncodingFits.latch
  | .capNone => Laws.EncodingFits.capNone
  | .capReject => Laws.EncodingFits.capReject
  | .capAccept => Laws.EncodingFits.capAccept
  | .ovfNone => Laws.EncodingFits.ovfNone
  | .ovfTick => Laws.EncodingFits.ovfTick
  | .ovfTimeout => Laws.EncodingFits.ovfTimeout
  | .elapsed => Laws.EncodingFits.elapsed
  | .advRun => Laws.EncodingFits.advRun
  | .advHold => Laws.EncodingFits.advHold
  | .clear => Laws.EncodingFits.clear
  | .renderActive => Laws.EncodingFits.renderActive
  | .renderIdle => Laws.EncodingFits.renderIdle
  | .transmit => Laws.EncodingFits.transmit
  | .settle => Laws.EncodingFits.settle
  | .frame => Laws.EncodingFits.frame
  | .setPix i g r b w => Laws.EncodingFits.setPix i g r b w
  | .getPix i => Laws.EncodingFits.getPix i
  | .lutW j => Laws.EncodingFits.lutW j
  | .readCaptureEvent => Laws.EncodingFits.readCaptureEvent
  | .readOverflowEvent => Laws.EncodingFits.readOverflowEvent
  | .currentCounterValue => Laws.EncodingFits.currentCounterValue
  | .setOutputLevel l => Laws.EncodingFits.setOutputLevel l
  | .waitSlotBoundary => Laws.EncodingFits.waitSlotBoundary
  | .delay us => Laws.EncodingFits.delay us

/-- The bits of a well-formed operation stand for it: by the match value of its row where a dispatch vector selects it,
by its fields where it carries operands, and by its channel alone otherwise. -/
theorem decodeBits_encodeBits {i : Instr} (h : i.wellFormed = true) :
    decodeBits i.channel (encodeBits i).2 = .ok i := by
  cases i with
  | pixelAt i => cases h
  | byte v => simp only [Instr.channel, encodeBits, decodeBits, BitVec.ofNat_toNat, BitVec.setWidth_eq]
  | pixel g r b w =>
    obtain ⟨-, hg, hr, hb, hw⟩ := bytes_of_word 0 g r b w
    simp only [Nat.zero_mul, Nat.zero_add] at hg hr hb hw
    simp only [Instr.channel, encodeBits, decodeBits, hg, hr, hb, hw]
  | setPix i g r b w =>
    obtain ⟨hi, hg, hr, hb, hw⟩ := bytes_of_word (BitVec.ofInt 8 i).toNat g r b w
    simp only [Instr.channel, encodeBits, decodeBits, hi, hg, hr, hb, hw, toInt_pixelIndex h]
  | getPix i => simp only [Instr.channel, encodeBits, decodeBits, toInt_pixelIndex h]
  | lutW j => simp only [Instr.channel, encodeBits, decodeBits, toInt_tableIndex h]
  | setOutputLevel l => cases l <;> rfl
  | delay us =>
    have hus : us % 65536 = us := Nat.mod_eq_of_lt (of_decide_eq_true h)
    simp only [Instr.channel, encodeBits, decodeBits, hus]
  | _ => rfl

/-- Settles O1: the bits of a well-formed operation fit its channel, so they survive as bytes, and they stand for it. -/
theorem decodeOfEncodeIsIdentity : Obligations.DecodeOfEncodeIsIdentity := by
  intro i h
  rw [encode, decode_bytesOfNumber (encodeBits_fits i h), decodeBits_encodeBits h]

/-- Settles O2: each word is evaluated. -/
theorem tableWordsDecodeToTheirOperations : Obligations.TableWordsDecodeToTheirOperations :=
  ⟨rfl, rfl, rfl, rfl, rfl, rfl, rfl, rfl, rfl, rfl, rfl, rfl⟩

/-! ### The operation map (30_encoding.md R64) -/

theorem selects_iff {r : DvRow} {v : BitVec 9} : r.selects v = true ↔ v &&& r.mask = r.value := by
  rw [DvRow.selects, beq_iff_eq]

/-- Two rows that select one vector agree wherever both look at it. -/
theorem agree_of_selects {r r' : DvRow} {v : BitVec 9} (h : r.selects v = true) (h' : r'.selects v = true) :
    r.value &&& r'.mask = r'.value &&& r.mask := by
  rw [← selects_iff.mp h, ← selects_iff.mp h', BitVec.and_assoc, BitVec.and_assoc, BitVec.and_comm r.mask]

/-- Any two rows of the map differ in a bit that both look at: the rows are disjoint. -/
theorem dvRows_disjoint : ∀ r ∈ dvRows, ∀ r' ∈ dvRows, r.value &&& r'.mask = r'.value &&& r.mask → r = r' := by
  decide

theorem dvRows_op_injective : ∀ r ∈ dvRows, ∀ r' ∈ dvRows, r.op = r'.op → r = r' := by decide

theorem selects_of_find? {r : DvRow} {v : BitVec 9} (h : dvRows.find? (·.selects v) = some r) : r.selects v = true :=
  List.find?_some (p := fun r : DvRow => r.selects v) h

/-- The one row that selects a vector gives its operation. -/
theorem decodeDv_of_selects {r : DvRow} {v : BitVec 9} (hr : r ∈ dvRows) (h : r.selects v = true) :
    decodeDv v = .ok r.op := by
  unfold decodeDv
  cases hfind : dvRows.find? (·.selects v) with
  | none => exact absurd h (List.find?_eq_none.mp hfind r hr)
  | some r' =>
    have hagree := agree_of_selects (selects_of_find? hfind) h
    rw [dvRows_disjoint r' (List.mem_of_find?_eq_some hfind) r hr hagree]

theorem selects_of_decodeDv {r : DvRow} {v : BitVec 9} (hr : r ∈ dvRows) (h : decodeDv v = .ok r.op) :
    r.selects v = true := by
  unfold decodeDv at h
  cases hfind : dvRows.find? (·.selects v) with
  | none => rw [hfind] at h; cases h
  | some r' =>
    rw [hfind] at h
    rw [← dvRows_op_injective r' (List.mem_of_find?_eq_some hfind) r hr (Except.ok.inj h)]
    exact selects_of_find? hfind

/-- A row of the map selects exactly the vectors with its match under its mask. -/
theorem selectedBy_of_mem {op : Instr} {value mask : BitVec 9} (hr : ⟨value, mask, op⟩ ∈ dvRows) :
    SelectedBy op value mask := fun _ =>
  ⟨fun h => selects_iff.mp (selects_of_decodeDv hr h), fun h => decodeDv_of_selects hr (selects_iff.mpr h)⟩

/-- Over phases 1..8 the rows are exhaustive. -/
theorem exists_row_of_legal_phase :
    ∀ v : BitVec 9, 1 ≤ v.toNat / 32 → v.toNat / 32 ≤ 8 → ∃ r ∈ dvRows, r.selects v = true := by
  decide +kernel

/-- Settles O3: each clause is a row of the map. -/
theorem operationMapSelectsAsTheTable : Obligations.OperationMapSelectsAsTheTable := by
  refine ⟨?_, ?_, ?_, ?_, ?_, ?_, ?_, ?_, ?_, ?_, ?_, ?_, ?_, ?_, fun v hlow hhigh => ?_⟩
  case refine_15 =>
    obtain ⟨r, hr, hselects⟩ := exists_row_of_legal_phase v hlow hhigh
    exact ⟨r, hr, decodeDv_of_selects hr hselects⟩
  all_goals exact selectedBy_of_mem (by decide)

/-- Settles O4: what the bytes of the dispatch vector decode to is what the step fetches. -/
theorem stepRunsTheDecodedOperation : Obligations.StepRunsTheDecodedOperation := fun _ _ => step_of_fetch

/-! ### Legal and illegal phases (30_encoding.md R70) -/

/-- Every operation is total (60_exceptions.md R137). -/
theorem exec_answers (i : Instr) (s : State) : ∃ t, exec i s = .next t := by
  cases i <;> exact ⟨_, rfl⟩

theorem phase_ne_of_illegal {p n : BitVec 4} (h : p = 0 ∨ 9 ≤ p.toNat) (hlow : 1 ≤ n.toNat) (hhigh : n.toNat ≤ 8) :
    p ≠ n := by
  rintro rfl
  rcases h with rfl | h
  · exact absurd hlow (by decide)
  · omega

theorem fetch_of_illegal {s : State} (h : s.phase = 0 ∨ 9 ≤ s.phase.toNat) : fetch s = .error .noSuchPhase := by
  rw [fetch_cases]
  simp [phase_ne_of_illegal h]

theorem toNat_append_bit_div {n : Nat} (x : BitVec n) (b : BitVec 1) : (x ++ b).toNat / 2 = x.toNat := by
  have hb := b.isLt
  rw [BitVec.toNat_append, ← Nat.shiftLeft_add_eq_or_of_lt hb, Nat.shiftLeft_eq]
  omega

/-- The phase is the top four bits of the dispatch vector. -/
theorem dispatchVector_div (s : State) : (dispatchVector s).toNat / 32 = s.phase.toNat := by
  rw [dispatchVector_eq]
  unfold vectorOf
  rw [show 32 = 2 * 2 * 2 * 2 * 2 from rfl]
  simp only [← Nat.div_div_eq_div_mul, toNat_append_bit_div]

theorem exists_fetch_of_legal {s : State} (hlow : 1 ≤ s.phase.toNat) (hhigh : s.phase.toNat ≤ 8) :
    ∃ i, fetch s = .ok i := by
  rw [← dispatchVector_div] at hlow hhigh
  obtain ⟨r, hr, hselects⟩ := exists_row_of_legal_phase _ hlow hhigh
  exact ⟨r.op, by rw [fetch_eq, decodeDv_of_selects hr hselects]⟩

/-- Settles O7: an illegal phase fetches nothing, a legal one an operation, which is total and moves the phase on. -/
theorem stepFaultsExactlyOnIllegalPhases : Obligations.StepFaultsExactlyOnIllegalPhases := by
  refine ⟨rfl, fun s => ⟨fun h => ?_, fun hlow hhigh => ?_⟩⟩
  · rw [step, fetch_of_illegal (s := advance s) (by rwa [advance_phase]), advance_phase]
  · obtain ⟨i, hi⟩ := exists_fetch_of_legal (s := advance s) (by rwa [advance_phase]) (by rwa [advance_phase])
    obtain ⟨t, ht⟩ := exec_answers i (advance s)
    have hstep : step s = .next t := by rw [step_of_fetch hi, ht]
    have hphase := step_phase hstep
    exact ⟨t, hstep, by split at hphase <;> omega, by split at hphase <;> omega⟩

/-! ### The wire operations one by one (30_encoding.md R56 to R58, R60) -/

/-- What a transmission leaves alone, in the order of the claims. -/
theorem SameCore.frame {s t : State} (h : SameCore s t) :
    t.bnd = { s.bnd with slot := t.bnd.slot } ∧ t.phase = s.phase ∧ t.spd = s.spd ∧ t.pos = s.pos ∧ t.ren = s.ren ∧
      t.returned = s.returned ∧ SameInputs s t := by
  obtain ⟨hphase, hspd, hpos, hren, hcfg, hreturned, henv, hdraws, hbnd⟩ := h
  exact ⟨hbnd, hphase, hspd, hpos, hren, hreturned, hcfg, henv, hdraws⟩

theorem exec_sym (bit : Bool) (s : State) : exec (if bit then .sym1 else .sym0) s = .next (sendSym bit s) := by
  cases bit <;> rfl

/-- Settles O41: the symbol is `sendSym_eq`, and the high time of a bit is shorter than the slot. -/
theorem symbolsFillOneSlot : Obligations.SymbolsFillOneSlot := by
  intro s bit
  have hhigh : highTime s.cfg bit + (s.cfg.tSlot - highTime s.cfg bit) = s.cfg.tSlot :=
    Nat.add_sub_cancel' (highTime_lt s.cfg bit).le
  obtain ⟨-, hframe⟩ := (sendSym_sameCore bit s).frame
  refine ⟨sendSym bit s, exec_sym bit s, ⟨?_, hhigh, ?_, ?_⟩, ?_, hframe⟩
  · rw [trace, sendSym_wire, List.reverse_cons]
    rfl
  · rw [sendSym_eq]
    rfl
  all_goals rw [sendSym_eq]

/-- Settles O42: the bytes' symbols, registers and boundaries are those of the loop of BYTE. -/
theorem byteEmitsEightSymbolsMsbFirst : Obligations.ByteEmitsEightSymbolsMsbFirst := by
  intro s v
  refine ⟨sendByte v s, rfl, ?_, sendByte_enc v s, sendByte_nextBoundary v s, (sendByte_sameCore v s).frame⟩
  rw [trace, sendByte_wire, List.reverse_append, List.reverse_reverse]
  rfl

/-- Bit `31 − n` of `g ‖ r ‖ b ‖ w` is bit `7 − (n mod 8)` of channel `n / 8`. -/
theorem getLsbD_word (p : Pixel) {n : Nat} (h : n < 32) :
    (p.g ++ p.r ++ p.b ++ p.w).getLsbD (31 - n) = (p.channel (n / 8)).getLsbD (7 - n % 8) := by
  have hchannel : n / 8 = 0 ∨ n / 8 = 1 ∨ n / 8 = 2 ∨ n / 8 = 3 := by omega
  simp only [BitVec.getLsbD_append]
  rcases hchannel with h0 | h1 | h2 | h3
  · rw [if_neg (by omega), if_neg (by omega), if_neg (by omega), show 31 - n - 8 - 8 - 8 = 7 - n % 8 by omega, h0]
    rfl
  · rw [if_neg (by omega), if_neg (by omega), if_pos (by omega), show 31 - n - 8 - 8 = 7 - n % 8 by omega, h1]
    rfl
  · rw [if_neg (by omega), if_pos (by omega), show 31 - n - 8 = 7 - n % 8 by omega, h2]
    rfl
  · rw [if_pos (by omega), show 31 - n = 7 - n % 8 by omega, h3]
    rfl

theorem map_word_eq_pixelSymbols (c : Config) (p : Pixel) :
    ((List.range 32).map fun n => symbol c ((p.g ++ p.r ++ p.b ++ p.w).getLsbD (31 - n))) = pixelSymbols c p := by
  have h : ∀ n ∈ List.range 32, symbol c ((p.g ++ p.r ++ p.b ++ p.w).getLsbD (31 - n))
      = symbol c ((p.channel (n / 8)).getLsbD (7 - n % 8)) := fun n hn => by
    rw [getLsbD_word p (List.mem_range.mp hn)]
  rw [List.map_congr_left h]
  rfl

theorem atPixel_pixIdx (s : State) : atPixel s.enc.pixIdx.toNat s = s := by
  rw [atPixel, BitVec.ofNat_toNat, BitVec.setWidth_eq]

/-- Both forms of PIXEL send a pixel with `pix_idx` set before: to the index, or to what it was. -/
theorem exec_pixel_forms {s : State} {op : Instr} {p : Pixel} {k : BitVec 6}
    (h : (op = .pixel p.g p.r p.b p.w ∧ k = s.enc.pixIdx) ∨
      (∃ i : BitVec 6, op = .pixelAt i ∧ p = readPixel s.ren.pb (nearestPixel i.toNat) ∧
        k.toNat = nearestPixel i.toNat)) :
    exec op s = .next (sendPixel p (atPixel k.toNat s)) := by
  rcases h with ⟨rfl, rfl⟩ | ⟨i, rfl, rfl, hk⟩
  · rw [atPixel_pixIdx]
    rfl
  · rw [hk, ← clampIndex_eq_nearestPixel]
    rfl

/-- Settles O43: sending a pixel is `sendPixel`'s laws, and its symbols are those of its word. -/
theorem pixelEmitsItsWordFromBit31 : Obligations.PixelEmitsItsWordFromBit31 := by
  intro s op p k h
  refine ⟨sendPixel p (atPixel k.toNat s), exec_pixel_forms h, ?_, ?_,
    sendPixel_nextBoundary p (atPixel k.toNat s),
    ((atPixel_sameCore k.toNat s).trans (sendPixel_sameCore p _)).frame⟩
  · rw [trace, sendPixel_wire, List.reverse_append, List.reverse_reverse, map_word_eq_pixelSymbols]
    rfl
  · rw [sendPixel_enc, atPixel_enc, BitVec.ofNat_toNat, BitVec.setWidth_eq]
    rfl

/-- Settles O44: the latch interval is `holdLatch_eq`, its length a constraint of every configuration. -/
theorem latchHoldsTheLineLow : Obligations.LatchHoldsTheLineLow := by
  intro s
  have htReset : 80000000 ≤ s.cfg.tReset := by
    have := config_bounds s.cfg
    omega
  obtain ⟨-, hframe⟩ := (holdLatch_sameCore s).frame
  refine ⟨holdLatch s, rfl, ?_, htReset, ?_, ?_, ?_, hframe⟩
  · rw [trace, holdLatch_eq, List.reverse_cons]
    rfl
  all_goals rw [holdLatch_eq]

/-! ### TRANSMIT and its receiver (30_encoding.md R59, R60, R62) -/

/-- Settles O45: TRANSMIT's row, its trace and its encoder, and the core it leaves alone up to the phase. -/
theorem transmitSendsTheFrame : Obligations.TransmitSendsTheFrame := by
  refine ⟨selectedBy_of_mem (by decide), fun s => ?_⟩
  obtain ⟨u, hu, ht⟩ := transmit_sameCore s
  obtain ⟨hbnd, -, -, -, -, hreturned, hinputs⟩ := hu.frame
  refine ⟨transmit s, rfl, transmit_trace s, transmit_phase s, transmit_enc s, transmit_spd s, transmit_pos s,
    transmit_ren s, ?_, ?_, ?_⟩
  all_goals rw [ht]
  · exact hbnd
  · exact hreturned
  · exact hinputs

/-- A receiver tells the two symbols apart: a 0-bit is high for less time than a 1-bit. -/
theorem receivedBit_symbol (c : Config) (bit : Bool) : receivedBit c (symbol c bit) = bit := by
  have hshort : highTime c false < highTime c true := by
    have hduty : c.duty0Cycles < c.duty1Cycles := by
      have := config_bounds c
      omega
    rw [highTime_eq, highTime_eq]
    exact Nat.mul_lt_mul_of_pos_right hduty (tClk_pos c)
  cases bit with
  | false => exact beq_eq_false_iff_ne.mpr hshort.ne
  | true => exact beq_self_eq_true c.t1h

/-- A byte shifted right by one less is twice the byte shifted right, and the bit that comes in. -/
theorem ushiftRight_eq_double_add_bit (v : Byte) (k : Nat) :
    v >>> k = (v >>> (k + 1)) * 2 + (if v.getLsbD k then 1 else 0) := by
  have hv : v.toNat / 2 ^ k < 256 := (Nat.div_le_self _ _).trans_lt v.isLt
  apply BitVec.eq_of_toNat_eq
  have hhalf : v.toNat / 2 ^ (k + 1) = v.toNat / 2 ^ k / 2 := by rw [pow_succ, Nat.div_div_eq_div_mul]
  simp only [BitVec.getLsbD, Nat.testBit_eq_decide_div_mod_eq, BitVec.toNat_add, BitVec.toNat_mul,
    BitVec.toNat_ushiftRight, Nat.shiftRight_eq_div_pow, hhalf, decide_eq_true_eq]
  by_cases hbit : v.toNat / 2 ^ k % 2 = 1
  · rw [if_pos hbit]
    bv_omega
  · rw [if_neg hbit]
    bv_omega

/-- Reading the first `n` bits of a byte, most significant first, gives its high part. -/
theorem foldl_bits (v : Byte) : ∀ n ≤ 8,
    (List.range n).foldl (fun a j => a * 2 + (if v.getLsbD (7 - j) then 1 else 0)) 0 = v >>> (8 - n)
  | 0, _ => (BitVec.ushiftRight_eq_zero le_rfl).symm
  | n + 1, h => by
    rw [List.range_succ, List.foldl_append, foldl_bits v n (by omega), ushiftRight_eq_double_add_bit v (8 - (n + 1)),
      show 8 - (n + 1) + 1 = 8 - n by omega, show 8 - (n + 1) = 7 - n by omega]
    rfl

/-- Eight entries out of a mapped range, whatever follows it. -/
theorem take_drop_map_range {α : Type} (f : Nat → α) (rest : List α) {n k m : Nat} (h : k + m ≤ n) :
    (((List.range n).map f ++ rest).drop k).take m = (List.range m).map fun j => f (k + j) := by
  obtain ⟨d, rfl⟩ := Nat.exists_eq_add_of_le h
  rw [Nat.add_assoc, List.range_add, List.range_add]
  simp [Function.comp_def]

theorem slotBit_of_byte (m : Memory) (k : Nat) {j : Nat} (h : j < 8) :
    slotBit m (8 * k + j) = ((readPixel m (k / 4)).channel (k % 4)).getLsbD (7 - j) := by
  have hpixel : (8 * k + j) / 32 = k / 4 := by omega
  have hchannel : (8 * k + j) / 8 % 4 = k % 4 := by omega
  have hbit : (8 * k + j) % 8 = j := by omega
  rw [slotBit, hpixel, hchannel, hbit]

/-- A receiver of eight symbols reads the byte whose bits they carry. -/
theorem foldl_received_symbols (c : Config) (v : Byte) :
    ((List.range 8).map fun j => symbol c (v.getLsbD (7 - j))).foldl
      (fun a e => a * 2 + (if receivedBit c e then 1 else 0)) 0 = v := by
  rw [List.foldl_map]
  simp only [receivedBit_symbol]
  rw [foldl_bits v 8 le_rfl]
  simp

/-- A receiver of a frame reads byte `k` of the buffer, whatever follows the frame. -/
theorem receivedByte_frameSymbols (c : Config) (m : Memory) (rest : List WireEvent) {k : Nat} (h : k < 216) :
    receivedByte c (frameSymbols c m ++ rest) k = (readPixel m (k / 4)).channel (k % 4) := by
  have hbits : ∀ j ∈ List.range 8, symbol c (slotBit m (8 * k + j))
      = symbol c (((readPixel m (k / 4)).channel (k % 4)).getLsbD (7 - j)) := fun j hj => by
    rw [slotBit_of_byte m k (List.mem_range.mp hj)]
  rw [receivedByte, frameSymbols, take_drop_map_range _ _ (by omega), List.map_congr_left hbits,
    foldl_received_symbols]

/-- Settles O48: what TRANSMIT adds to the trace is the frame of the buffer and the latch. -/
theorem receiverRecoversTheBuffer : Obligations.ReceiverRecoversTheBuffer := by
  intro s t h k hk
  rw [eq_of_next h, transmit_trace, List.append_assoc, List.drop_left, receivedByte_frameSymbols _ _ _ hk]

end Sys2Proof.Machine
end

section
/-! PROOFS for 40_serial_encoder.md. The slot timer's count, how long TRANSMIT takes, and that TRANSMIT is its pixels and
then the latch: the encoder's registers do not reach the line. -/

namespace Sys2Proof.Machine

/-! ### The slot timer (40_serial_encoder.md R80) -/

theorem slotCycles_pos (c : Config) : 0 < c.slotCycles := (dutyCycles_pos c true).trans (dutyCycles_lt c true)

/-- Inside its range the count goes up by one with each clock period, and back to 0 after the last of a slot. -/
theorem runSlot_tClk (c : Config) {t : SlotTimer} (hcount : t.count < c.slotCycles) (hwithin : t.within < c.tClk) :
    runSlot c c.tClk t =
      { count := if t.count + 1 = c.slotCycles then 0 else t.count + 1, within := t.within } := by
  have hperiods : (t.within + c.tClk) / c.tClk = 1 := by
    rw [Nat.add_div_right _ (tClk_pos c), Nat.div_eq_of_lt hwithin]
  have hcarry : (t.count + 1) % c.slotCycles = if t.count + 1 = c.slotCycles then 0 else t.count + 1 := by
    split
    case isTrue hwrap => rw [hwrap, Nat.mod_self]
    case isFalse hinside => exact Nat.mod_eq_of_lt (by omega)
  rw [runSlot, hperiods, hcarry, Nat.add_mod_right, Nat.mod_eq_of_lt hwithin]

/-- The clock periods of two times in a row: those that end in the first, and those that end in the second from where the
first left off. -/
theorem runSlot_add (c : Config) (a b : Nat) (t : SlotTimer) : runSlot c (a + b) t = runSlot c b (runSlot c a t) := by
  have hperiods : (t.within + (a + b)) / c.tClk
      = (t.within + a) / c.tClk + ((t.within + a) % c.tClk + b) / c.tClk := by
    rw [← Nat.mul_add_div (tClk_pos c), ← Nat.add_assoc (c.tClk * _), Nat.div_add_mod, Nat.add_assoc]
  simp only [runSlot, hperiods, Nat.mod_add_mod, Nat.add_assoc]

theorem runSlot_count (c : Config) (ps : Nat) (t : SlotTimer) : (runSlot c ps t).count < c.slotCycles :=
  Nat.mod_lt _ (slotCycles_pos c)

/-- Settles O60: one clock period carries at most once, and the division of a time into clock periods is additive. -/
theorem slotTimerTicksAtTheWrap : Obligations.SlotTimerTicksAtTheWrap := fun c t a b =>
  ⟨runSlot_tClk c, runSlot_add c a b t, runSlot_count c a t, runSlot_within c a t⟩

/-! ### How long TRANSMIT takes (40_serial_encoder.md R81, R84) -/

theorem sendPixelAt_nextBoundary (i : Nat) (s : State) :
    nextBoundary (sendPixelAt i s) = nextBoundary s + 32 * s.cfg.tSlot :=
  sendPixel_nextBoundary _ (atPixel i s)

/-- The loop of TRANSMIT moves the next boundary on by 32 slots for each pixel. -/
theorem sendPixels_nextBoundary : ∀ (l : List Nat) (s : State),
    nextBoundary (l.foldl (fun s i => sendPixelAt i s) s) = nextBoundary s + l.length * (32 * s.cfg.tSlot)
  | [], s => by rw [List.foldl_nil, List.length_nil, Nat.zero_mul, Nat.add_zero]
  | i :: l, s => by
    rw [List.foldl_cons, sendPixels_nextBoundary l, sendPixelAt_nextBoundary, sendPixelAt_cfg, List.length_cons,
      Nat.add_one_mul l.length]
    omega

/-- After the last pixel of the frame the rest of its last slot is still to come. -/
theorem sendPixels_restOfSlot (s : State) :
    restOfSlot ((List.range nPix).foldl (fun s i => sendPixelAt i s) s)
      = toBoundary ((List.range nPix).foldl (fun s i => sendPixelAt i s) s) := by
  rw [show nPix = 53 + 1 from rfl, List.range_succ, List.foldl_append, List.foldl_cons, List.foldl_nil]
  exact sendPixel_restOfSlot _ _

/-- Inside a slot the latch interval begins at the next boundary. -/
theorem holdLatch_time {s : State} (h : restOfSlot s = toBoundary s) :
    (holdLatch s).time = nextBoundary s + s.cfg.tReset := by
  rw [holdLatch_eq, h, nextBoundary]

/-- TRANSMIT ends T_RESET after the 1728 slots that begin at the next boundary. -/
theorem transmit_time (s : State) : (transmit s).time = nextBoundary s + 1728 * s.cfg.tSlot + s.cfg.tReset := by
  have hstart : nextBoundary (beginSync s) = nextBoundary s := rfl
  have hslots : nPix * (32 * s.cfg.tSlot) = 1728 * s.cfg.tSlot := (Nat.mul_assoc 54 32 _).symm
  rw [transmit, goPhase_time, endTransmit_time, holdLatch_time (sendPixels_restOfSlot _), sendPixels_nextBoundary,
    sendPixels_cfg, List.length_range, beginSync_cfg, hstart, hslots]

/-- Settles O47: the next boundary is more than 0 and at most one slot away. -/
theorem transmitTakesTheFrameTime : Obligations.TransmitTakesTheFrameTime := by
  intro s t h
  obtain ⟨hpos, hle⟩ := toBoundary_pos s
  rw [eq_of_next h, transmit_time, nextBoundary]
  omega

/-! ### TRANSMIT by its pixels (40_serial_encoder.md R78) -/

/-- The two states differ in the encoder's registers at most. -/
def SameButEnc (s t : State) : Prop := ∃ e, t = { s with enc := e }

theorem SameButEnc.refl (s : State) : SameButEnc s s := ⟨s.enc, rfl⟩

theorem SameButEnc.symm {s t : State} : SameButEnc s t → SameButEnc t s := by
  rintro ⟨e, rfl⟩
  exact ⟨s.enc, rfl⟩

theorem SameButEnc.trans {s t u : State} : SameButEnc s t → SameButEnc t u → SameButEnc s u := by
  rintro ⟨e, rfl⟩ ⟨e', rfl⟩
  exact ⟨e', rfl⟩

theorem SameButEnc.ren_eq {s t : State} : SameButEnc s t → t.ren = s.ren := by
  rintro ⟨e, rfl⟩
  rfl

theorem beginSync_sameButEnc (s : State) : SameButEnc s (beginSync s) := ⟨_, rfl⟩

theorem endTransmit_sameButEnc (s : State) : SameButEnc s (endTransmit s) := ⟨_, rfl⟩

/-! Writing a loop counter, sending and latching: what stood in the encoder's registers shows in them alone. -/

theorem SameButEnc.atBit {s t : State} (k : Nat) : SameButEnc s t → SameButEnc (atBit k s) (atBit k t) := by
  rintro ⟨e, rfl⟩
  exact ⟨_, rfl⟩

theorem SameButEnc.atChannel {s t : State} (k : Nat) : SameButEnc s t → SameButEnc (atChannel k s) (atChannel k t) := by
  rintro ⟨e, rfl⟩
  exact ⟨_, rfl⟩

theorem SameButEnc.atPixel {s t : State} (k : Nat) : SameButEnc s t → SameButEnc (atPixel k s) (atPixel k t) := by
  rintro ⟨e, rfl⟩
  exact ⟨_, rfl⟩

theorem SameButEnc.sendSym {s t : State} (bit : Bool) : SameButEnc s t → SameButEnc (sendSym bit s) (sendSym bit t) := by
  rintro ⟨e, rfl⟩
  rw [sendSym_eq, sendSym_eq]
  exact ⟨_, rfl⟩

theorem SameButEnc.sendByte {s t : State} (v : Byte) (h : SameButEnc s t) :
    SameButEnc (sendByte v s) (sendByte v t) :=
  List.foldl_rel h fun k _ _ _ h => (h.atBit k).sendSym (v.getLsbD k)

theorem SameButEnc.sendPixel {s t : State} (p : Pixel) (h : SameButEnc s t) :
    SameButEnc (sendPixel p s) (sendPixel p t) :=
  have hgr := (((h.atChannel 0).sendByte p.g).atChannel 1).sendByte p.r
  (((hgr.atChannel 2).sendByte p.b).atChannel 3).sendByte p.w

theorem SameButEnc.sendPixelAt {s t : State} (i : Nat) (h : SameButEnc s t) :
    SameButEnc (sendPixelAt i s) (sendPixelAt i t) := by
  unfold Machine.sendPixelAt
  rw [h.ren_eq]
  exact (h.atPixel i).sendPixel _

theorem SameButEnc.holdLatch {s t : State} : SameButEnc s t → SameButEnc (holdLatch s) (holdLatch t) := by
  rintro ⟨e, rfl⟩
  rw [holdLatch_eq, holdLatch_eq]
  exact ⟨_, rfl⟩

/-- The operation does what TRANSMIT does for pixel `i` of a buffer, up to the encoder's registers. -/
def SendsPixel (m : Memory) (i : Nat) (op : Instr) : Prop :=
  ∀ s : State, s.ren.pb = m → ∃ t, exec op s = .next t ∧ SameButEnc (sendPixelAt i s) t

theorem exec_pixelAt (i : BitVec 6) (s : State) :
    exec (.pixelAt i) s = .next (sendPixelAt (clampIndex i.toNat) s) := rfl

theorem sendsPixel_pixelAt (m : Memory) {i : Nat} (h : i < 54) : SendsPixel m i (.pixelAt (BitVec.ofNat 6 i)) := by
  intro s _
  have hindex : (BitVec.ofNat 6 i).toNat = i := by
    rw [BitVec.toNat_ofNat]
    omega
  refine ⟨sendPixelAt i s, ?_, SameButEnc.refl _⟩
  rw [exec_pixelAt, hindex, clampIndex_of_nat (by omega)]

theorem sendsPixel_pixel (m : Memory) (i : Nat) :
    SendsPixel m i (.pixel (readPixel m i).g (readPixel m i).r (readPixel m i).b (readPixel m i).w) := by
  rintro s rfl
  have hcounter : SameButEnc (atPixel i s) s := SameButEnc.symm ⟨_, rfl⟩
  exact ⟨sendPixel (readPixel s.ren.pb i) s, rfl, hcounter.sendPixel _⟩

theorem execAll_cons {i : Instr} {s t : State} (h : exec i s = .next t) (is : List Instr) :
    execAll (i :: is) s = execAll is t := by
  rw [execAll, h]

/-- Operations that send a buffer's pixels one after another do what the loop of TRANSMIT does, from any state that
differs from its start in the encoder's registers only. -/
theorem execAll_sendsPixels {m : Memory} {op : Nat → Instr} (rest : List Instr) :
    ∀ (l : List Nat) (s t : State), (∀ i ∈ l, SendsPixel m i (op i)) → s.ren.pb = m → SameButEnc s t →
      ∃ u, execAll (l.map op ++ rest) t = execAll rest u ∧ SameButEnc (l.foldl (fun s i => sendPixelAt i s) s) u
  | [], _, t, _, _, hst => ⟨t, rfl, hst⟩
  | i :: l, s, t, hops, hbuffer, hst => by
    obtain ⟨t', hexec, hsent⟩ := hops i List.mem_cons_self t (by rw [hst.ren_eq, hbuffer])
    obtain ⟨u, hu, hloop⟩ := execAll_sendsPixels rest l (sendPixelAt i s) t'
      (fun j hj => hops j (List.mem_cons_of_mem i hj)) (by rw [sendPixelAt_ren, hbuffer])
      ((hst.sendPixelAt i).trans hsent)
    refine ⟨u, (execAll_cons hexec _).trans hu, ?_⟩
    rwa [List.foldl_cons]

/-- TRANSMIT, but for the phase and the encoder's registers, is any operations that send the pixels of the buffer in
ascending order, and then LATCH. -/
theorem execAll_pixels_latch {op : Nat → Instr} (s : State)
    (hops : ∀ i ∈ List.range nPix, SendsPixel s.ren.pb i (op i)) :
    ∃ u v, execAll ((List.range nPix).map op ++ [.latch]) s = .next u ∧ SameButEnc v u ∧ transmit s = goPhase 8 v := by
  obtain ⟨u, hu, hloop⟩ := execAll_sendsPixels [.latch] (List.range nPix) (beginSync s) s hops rfl
    (beginSync_sameButEnc s).symm
  exact ⟨holdLatch u, _, hu, (endTransmit_sameButEnc _).symm.trans hloop.holdLatch, rfl⟩

/-- Settles O46: either form of PIXEL sends the pixels of the buffer, and the phase and the encoder's registers, in which
the runs differ, do not reach the line. -/
theorem transmitIsItsPixelsThenLatch : Obligations.TransmitIsItsPixelsThenLatch := by
  intro s t h ops hops
  have hrun : ∃ u v, execAll ops s = .next u ∧ SameButEnc v u ∧ transmit s = goPhase 8 v := by
    rcases hops with rfl | rfl
    · exact execAll_pixels_latch s fun i hi => sendsPixel_pixelAt _ (List.mem_range.mp hi)
    · exact execAll_pixels_latch s fun i _ => sendsPixel_pixel _ i
  obtain ⟨u, v, hu, ⟨e, rfl⟩, htransmit⟩ := hrun
  rw [eq_of_next h, htransmit]
  exact ⟨_, hu, rfl, rfl, rfl⟩

end Sys2Proof.Machine
end

section
/-! PROOFS for 41_speed_estimator.md. The filter as a function of the speed and the target; what the operations of phases
1 and 2 write, in full; and the one condition under which phase 2 leaves Active. -/

namespace Sys2Proof.Machine

/-! ### The filter (41_speed_estimator.md R91, R97): the high parts of speed and target decide where the speed goes -/

theorem le_smooth_iff (speed inst : U32) :
    speed.toNat ≤ (smooth speed inst).toNat ↔ speed.toNat / 16 ≤ inst.toNat / 16 := by
  rw [smooth_toNat]
  omega

theorem smooth_lt_iff (speed inst : U32) :
    (smooth speed inst).toNat < speed.toNat ↔ inst.toNat / 16 < speed.toNat / 16 := by
  rw [← Nat.not_le, le_smooth_iff, Nat.not_le]

theorem smooth_eq_iff (speed inst : U32) : smooth speed inst = speed ↔ speed.toNat / 16 = inst.toNat / 16 := by
  rw [← BitVec.toNat_inj, smooth_toNat]
  omega

/-! ### CAP.NONE, CAP.REJECT and CAP.ACCEPT (41_speed_estimator.md R86 to R91) -/

/-- Settles O17: both operations only acknowledge the capture. -/
theorem capNoneAndRejectIgnoreTheCapture : Obligations.CapNoneAndRejectIgnoreTheCapture := by
  refine ⟨selectedBy_of_mem (by decide), selectedBy_of_mem (by decide), ?_⟩
  rintro s i (rfl | rfl)
  · rfl
  · rfl

/-- CAP.ACCEPT, in full. -/
theorem exec_capAccept (s : State) :
    exec .capAccept s = .next { s with
      phase := 2
      spd := { speed := filteredSpeed s, lastTs := s.bnd.capLatch, since := 0, mode := .active, capSeen := true }
      ren := { s.ren with idleTime := if s.spd.mode = .idle then 0 else s.ren.idleTime }
      bnd := { s.bnd with capFlag := false } } := rfl

/-- A period at or above the debounce threshold is not 0, so the speed that enters the filter is the truncated quotient
(41_speed_estimator.md R90). -/
theorem instSpeed_capture {s : State} (h : s.cfg.debounceTicks ≤ capturePeriod s) :
    (instSpeed s.cfg (period s.bnd.capLatch s.spd.lastTs)).toNat
      = s.cfg.speedNum / (capturePeriod s * s.cfg.ticksPerRev) := by
  obtain ⟨hdebounce, -⟩ := config_bounds s.cfg
  have hperiod : (period s.bnd.capLatch s.spd.lastTs).toNat = capturePeriod s := period_toNat _ _
  rw [instSpeed_toNat s.cfg (by omega), hperiod]

theorem filteredSpeed_toNat {s : State} (h : s.cfg.debounceTicks ≤ capturePeriod s) :
    (filteredSpeed s).toNat = (s.spd.speed.toNat - s.spd.speed.toNat / 16)
      + s.cfg.speedNum / (capturePeriod s * s.cfg.ticksPerRev) / 16 := by
  rw [filteredSpeed, smooth_toNat, instSpeed_capture h]

/-- Settles O18: the state of `exec_capAccept`, its speed by the filter law. -/
theorem capAcceptFiltersTheSpeed : Obligations.CapAcceptFiltersTheSpeed := by
  refine ⟨selectedBy_of_mem (by decide), fun s _ hperiod => ⟨_, exec_capAccept s, filteredSpeed_toNat hperiod, ?_⟩⟩
  exact ⟨rfl, rfl, rfl, rfl, rfl, rfl, rfl, rfl, fun _ => rfl, rfl, ⟨rfl, rfl, rfl⟩, ⟨rfl, rfl, rfl⟩⟩

/-- Settles O19: the target is what CAP.ACCEPT feeds the filter, so each clause is a law of `smooth`. -/
theorem speedConvergesMonotonically : Obligations.SpeedConvergesMonotonically := by
  intro s t hperiod h target
  have hspeed : t.spd.speed = smooth s.spd.speed (instSpeed s.cfg (period s.bnd.capLatch s.spd.lastTs)) := by
    rw [eq_of_next ((exec_capAccept s).symm.trans h), filteredSpeed]
  have htarget : (instSpeed s.cfg (period s.bnd.capLatch s.spd.lastTs)).toNat = target := instSpeed_capture hperiod
  rw [hspeed, smooth_lt_iff, smooth_eq_iff, le_smooth_iff, htarget]
  exact ⟨fun hbelow => ⟨Nat.div_le_div_right hbelow, smooth_le hbelow htarget.le, Iff.rfl⟩, id⟩

/-! ### OVF.NONE, OVF.TICK and OVF.TIMEOUT (41_speed_estimator.md R92 to R95) -/

/-- Settles O20: both operations acknowledge the overflow, and OVF.TICK closes the window of `cap_seen`. -/
theorem ovfNoneAndTickKeepTheMode : Obligations.OvfNoneAndTickKeepTheMode :=
  ⟨selectedBy_of_mem (by decide), selectedBy_of_mem (by decide), fun _ => ⟨rfl, rfl⟩⟩

/-- OVF.TIMEOUT, in full. -/
theorem exec_ovfTimeout (s : State) :
    exec .ovfTimeout s = .next { s with
      phase := 3
      spd := { s.spd with speed := 0, mode := .idle, capSeen := false }
      ren := { s.ren with idleTime := 0 }
      bnd := { s.bnd with ovfFlag := false } } := rfl

/-- Settles O21: the state of `exec_ovfTimeout`. -/
theorem ovfTimeoutEntersIdle : Obligations.OvfTimeoutEntersIdle := by
  refine ⟨selectedBy_of_mem (by decide), fun s => ⟨_, exec_ovfTimeout s, ?_⟩⟩
  exact ⟨rfl, rfl, rfl, rfl, rfl, fun _ => rfl, rfl, ⟨rfl, rfl, rfl⟩, ⟨rfl, rfl, rfl⟩⟩

/-- Settles O22: of the three operations of phase 2 only OVF.TIMEOUT leaves Active (O23), and the dispatch selects it
under the condition. -/
theorem timeoutConditionIsExact : Obligations.TimeoutConditionIsExact := by
  intro s t hphase hactive h
  rw [step_of_phase_two hphase] at h
  have only_timeout (i : Instr) (hframe : i ≠ .frame) (hi : exec i (advance s) = .next t)
      (hidle : t.spd.mode = .idle) : i = .ovfTimeout := by
    obtain ⟨hleaves, -⟩ := onlyTimeoutAndAcceptChangeTheMode i (advance s) t hframe hi
    exact hleaves (by rwa [advance_spd]) hidle
  split_ifs at h with hovf htimeout
  · obtain ⟨hseen, -, hsince⟩ := htimeout
    rw [eq_of_next h]
    exact iff_of_true (ovfTimeout_mode _) ⟨hovf, hseen, hsince⟩
  · exact iff_of_false (fun hidle => absurd (only_timeout .ovfTick (by decide) h hidle) (by decide))
      fun ⟨_, hseen, hsince⟩ => htimeout ⟨hseen, hactive, hsince⟩
  · exact iff_of_false (fun hidle => absurd (only_timeout .ovfNone (by decide) h hidle) (by decide))
      fun ⟨hpending, _⟩ => hovf hpending

end Sys2Proof.Machine
end

section
/-! PROOFS for 42_position_integrator.md. What the operations of phases 3 and 4 write, in full; the wrap of the offset as
one conditional subtraction; and the offset that no step writes in Idle. -/

namespace Sys2Proof.Machine

/-! ### ELAPSED (42_position_integrator.md R99) -/

theorem elapsedTicks_toNat (now prevNow : U16) :
    (elapsedTicks now prevNow).toNat = (now.toNat + 65536 - prevNow.toNat) % 65536 :=
  period_toNat now prevNow

/-- ELAPSED, in full. -/
theorem exec_elapsed (s : State) :
    exec .elapsed s = .next { s with
      phase := 4
      spd := { s.spd with since := saturatingSince s.spd.since (elapsedTicks s.bnd.cnt s.pos.prevNow) }
      pos := { s.pos with elapsed := elapsedTicks s.bnd.cnt s.pos.prevNow, prevNow := s.bnd.cnt } } := rfl

/-- Settles O25: the state of `exec_elapsed`, its two numbers by their laws. -/
theorem elapsedMeasuresTicks : Obligations.ElapsedMeasuresTicks := by
  refine ⟨selectedBy_of_mem (by decide), fun s => ⟨_, exec_elapsed s, elapsedTicks_toNat _ _, rfl, rfl, rfl,
    saturatingSince_toNat _ _, ?_⟩⟩
  exact ⟨rfl, rfl, fun _ => rfl, rfl, rfl, ⟨rfl, rfl, rfl⟩, ⟨rfl, rfl, rfl⟩⟩

/-! ### ADV.RUN and ADV.HOLD (42_position_integrator.md R100 to R102) -/

/-- ADV.RUN, in full. -/
theorem exec_advRun (s : State) :
    exec .advRun s = .next { s with
      phase := 5
      pos := { s.pos with
        offset := wrapOffset s.pos.offset (posIncrement s.cfg s.pos.elapsed s.spd.speed) } } := rfl

/-- Settles O26: the state of `exec_advRun`, its offset by the law of the wrap. -/
theorem advRunIntegratesTheSpeed : Obligations.AdvRunIntegratesTheSpeed := by
  refine ⟨selectedBy_of_mem (by decide), fun s => ⟨_, exec_advRun s, wrapOffset_toNat _ _, ?_⟩⟩
  exact ⟨rfl, rfl, rfl, rfl, rfl, fun _ => rfl, rfl, rfl, ⟨rfl, rfl, rfl⟩, ⟨rfl, rfl, rfl⟩⟩

/-- Settles O28: ADV.HOLD is the move to phase 5. -/
theorem advHoldFreezesThePosition : Obligations.AdvHoldFreezesThePosition :=
  ⟨selectedBy_of_mem (by decide), fun _ => rfl⟩

/-! ### The wrap (42_position_integrator.md R103) -/

theorem getLsbD_wrapOffset_31 (offset : U32) (inc : Nat) : (wrapOffset offset inc).getLsbD 31 = false :=
  Nat.testBit_lt_two_pow (wrapOffset_lt offset inc)

/-- Of two numbers below the modulus the sum is taken modulo it by at most one subtraction. -/
theorem wrapOffset_of_lt {offset : U32} {inc : Nat} (hoffset : offset.toNat < 2 ^ 31) (hinc : inc < 2 ^ 31) :
    (wrapOffset offset inc).toNat = if 2 ^ 31 ≤ offset.toNat + inc then offset.toNat + inc - 2 ^ 31
      else offset.toNat + inc := by
  rw [wrapOffset_toNat, Nat.add_mod_eq_ite, Nat.mod_eq_of_lt hoffset, Nat.mod_eq_of_lt hinc]

theorem wrapOffset_of_sum_eq {offset : U32} {inc : Nat} (h : offset.toNat + inc = 2 ^ 31) :
    wrapOffset offset inc = 0 :=
  BitVec.eq_of_toNat_eq (by rw [wrapOffset_toNat, h]; rfl)

/-- Settles O27: the new offset is `wrapOffset`, and each clause one of its laws. -/
theorem positionWrapIsOneSubtraction : Obligations.PositionWrapIsOneSubtraction := by
  intro s t h inc
  have hoffset : t.pos.offset = wrapOffset s.pos.offset inc := by
    rw [eq_of_next ((exec_advRun s).symm.trans h)]
    rfl
  rw [hoffset]
  exact ⟨wrapOffset_toNat _ _, getLsbD_wrapOffset_31 _ _, wrapOffset_of_lt, wrapOffset_of_sum_eq⟩

/-! ### Idle (42_position_integrator.md R104) -/

/-- Phase 3 measures in either mode. -/
theorem step_pos_of_phase_three {s t : State} (hphase : s.phase = 3) (h : step s = .next t) :
    t.pos = { s.pos with
      elapsed := elapsedTicks (advance s).bnd.cnt s.pos.prevNow, prevNow := (advance s).bnd.cnt } := by
  rw [step_of_phase_three hphase, exec_elapsed, advance_pos] at h
  rw [eq_of_next h]

/-- Settles O29: the one step that writes the offset is that of phase 4 outside Idle. -/
theorem positionIsFrozenInIdle : Obligations.PositionIsFrozenInIdle := by
  intro s t hidle h
  refine ⟨?_, fun hphase => ?_⟩
  · rw [step_offset h, if_neg fun ⟨_, hactive⟩ => hactive hidle]
  · rw [step_pos_of_phase_three hphase h]
    exact ⟨rfl, elapsedTicks_toNat _ _⟩

end Sys2Proof.Machine
end

section
/-! PROOFS for 43_renderer.md. What CLEAR, SETPIX and the two renders write, in full; the pixel functions of the renders in
plain numbers; and the symmetries of the pictures they draw. -/

namespace Sys2Proof.Machine

/-! ### CLEAR (43_renderer.md R107) -/

/-- Buffers that agree on the pixels beyond 53 agree on the bytes beyond the 216. -/
theorem read_eq_of_pixels_beyond {m n : Memory} (h : ∀ j, 54 ≤ j → readPixel m j = readPixel n j) {a : Nat}
    (ha : 216 ≤ a) : m.read a = n.read a :=
  read_of_readPixel (h (a / 4) (by omega))

theorem read_clearBuffer_beyond (m : Memory) {a : Nat} (ha : 216 ≤ a) : (clearBuffer m).read a = m.read a :=
  read_eq_of_pixels_beyond (fun j hj => by rw [readPixel_clearBuffer, if_neg (Nat.not_lt.mpr hj)]) ha

/-- CLEAR, in full. -/
theorem clear_eq (s : State) :
    clear s = { s with phase := 6, ren := { s.ren with pb := clearBuffer s.ren.pb } } := by
  unfold clear goPhase withBuffer
  rfl

/-- Settles O30: the state of `clear_eq`, its buffer by the law of the loop. -/
theorem clearZeroesEveryPixel : Obligations.ClearZeroesEveryPixel := by
  refine ⟨selectedBy_of_mem (by decide), fun s => ⟨clear s, rfl, ?_⟩⟩
  rw [clear_eq]
  refine ⟨fun i hi => ?_, fun a ha => ?_, ?_⟩
  · rw [readPixel_clearBuffer, if_pos hi]
  · rw [read_clearBuffer_beyond _ ha]
  · exact ⟨rfl, rfl, rfl, rfl, rfl, rfl, ⟨rfl, rfl, rfl⟩, ⟨rfl, rfl, rfl⟩⟩

/-! ### SETPIX (43_renderer.md R108) -/

/-- SETPIX, in full. -/
theorem exec_setPix (i : Int) (g r b w : Byte) (s : State) :
    exec (.setPix i g r b w) s = .next { s with ren := { s.ren with pb := setPixel s.ren.pb i ⟨g, r, b, w⟩ } } := rfl

theorem read_setPixel_of_other (m : Memory) (i : Int) (p : Pixel) {a : Nat} (ha : a / 4 ≠ nearestPixel i) :
    (setPixel m i p).read a = m.read a := by
  rw [setPixel, read_writePixel, clampIndex_eq_nearestPixel, if_neg ha]

/-- Settles O31: the state of `exec_setPix`; a byte outside the nearest pixel's four belongs to another pixel. -/
theorem setPixWritesTheNearestPixel : Obligations.SetPixWritesTheNearestPixel := by
  intro s i g r b w
  refine ⟨_, exec_setPix i g r b w s, ?_, fun a ha => read_setPixel_of_other _ i _ (by omega), ?_⟩
  · rw [readPixel_setPixel, if_pos rfl]
  · exact ⟨rfl, rfl, rfl, rfl, rfl, rfl, ⟨rfl, rfl, rfl⟩, ⟨rfl, rfl, rfl⟩⟩

/-! ### What both renders draw (43_renderer.md R113, R118, R119) -/

theorem read_drawHalves_beyond (pix : Nat → Pixel) (m : Memory) {a : Nat} (ha : 216 ≤ a) :
    (drawHalves pix m).read a = m.read a :=
  read_eq_of_pixels_beyond
    (fun j hj => by rw [readPixel_drawHalves, if_neg (by omega), if_neg (Nat.not_lt.mpr hj)]) ha

/-- Both pixels of a position show it. -/
theorem readPixel_drawHalves_of_position (pix : Nat → Pixel) (m : Memory) {p q : Nat} (hp : p < 27)
    (hq : q = p ∨ q = 27 + p) : readPixel (drawHalves pix m) q = pix p := by
  rw [readPixel_drawHalves]
  rcases hq with rfl | rfl
  · rw [if_pos hp]
  · rw [if_neg (by omega), if_pos (by omega), Nat.add_sub_cancel_left]

/-- Settles O37: phase 6 draws the halves, whatever the mode makes of a position. -/
theorem halvesAreEqualAfterPhaseSix : Obligations.HalvesAreEqualAfterPhaseSix := by
  intro s t hphase h i hi
  rw [step_pb_of_phase_six hphase h, readPixel_drawHalves_of_position _ _ hi (.inl rfl),
    readPixel_drawHalves_of_position _ _ hi (.inr rfl)]

/-! ### RENDER.IDLE (43_renderer.md R112 to R115) -/

/-- RENDER.IDLE, in full. -/
theorem exec_renderIdle (s : State) :
    exec .renderIdle s = .next { s with
      phase := 7
      ren := {
        idleTime := s.ren.idleTime + s.pos.elapsed.setWidth 32
        pb := drawHalves (idlePixel s.cfg s.ren.idleTime) s.ren.pb } } := rfl

theorem idleClock_toNat (idleTime : U32) (elapsed : U16) :
    (idleTime + elapsed.setWidth 32).toNat = (idleTime.toNat + elapsed.toNat) % 2 ^ 32 := by
  rw [BitVec.toNat_add, BitVec.toNat_setWidth, Nat.add_mod_mod]

/-- The guard of R115 makes the brightness a byte, so nothing of it is cut off. -/
theorem idleValue_toNat (c : Config) (idleTime : U32) (p : Nat) :
    (idleValue c idleTime p).toNat =
      min 255 (((lutWindow c (8 * ((p : Int) - ((idleShift c idleTime : Int) - 27)))).toNat
        + (lutWindow c (8 * ((26 - (p : Int)) - ((idleShift c idleTime : Int) - 27)))).toNat) / 2 ^ c.idleAtten) := by
  rw [idleValue, BitVec.toNat_ofNat]
  exact Nat.mod_eq_of_lt (by omega)

/-- Settles O35: the state of `exec_renderIdle`; both pixels of a position show its brightness. -/
theorem renderIdleDrawsThePulse : Obligations.RenderIdleDrawsThePulse := by
  refine fun s => ⟨_, exec_renderIdle s, fun p hp => ?_, idleClock_toNat _ _, fun a ha => ?_, ?_⟩
  · intro a v q hq
    have hv : (idleValue s.cfg s.ren.idleTime p).toNat = v := idleValue_toNat s.cfg s.ren.idleTime p
    rw [readPixel_drawHalves_of_position _ _ hp hq]
    exact ⟨rfl, rfl, hv, hv⟩
  · rw [read_drawHalves_beyond _ _ ha]
  · exact ⟨rfl, rfl, rfl, rfl, rfl, ⟨rfl, rfl, rfl⟩, ⟨rfl, rfl, rfl⟩⟩

/-- Turning the half-strip around swaps the two samples of a position. -/
theorem idlePixel_symm (c : Config) (idleTime : U32) {p : Nat} (hp : p ≤ 26) :
    idlePixel c idleTime (26 - p) = idlePixel c idleTime p := by
  have hmirror : ((26 - p : Nat) : Int) = 26 - p := Int.ofNat_sub hp
  have hvalue : idleValue c idleTime (26 - p) = idleValue c idleTime p := by
    rw [idleValue, idleValue, hmirror, Int.sub_sub_self, Nat.add_comm]
  rw [idlePixel, idlePixel, hvalue]

/-- Settles O38: the two positions lie in one half, which shows the symmetric pixel function. -/
theorem idlePulseIsSymmetric : Obligations.IdlePulseIsSymmetric := by
  intro s t h p hp
  rw [exec_pb h, bufferAfter, readPixel_drawHalves_of_position _ _ hp (.inl rfl),
    readPixel_drawHalves_of_position (p := 26 - p) _ _ (by omega) (.inl rfl), idlePixel_symm _ _ (by omega)]

/-! ### RENDER.ACTIVE (43_renderer.md R116 to R118) -/

/-- RENDER.ACTIVE, in full. -/
theorem exec_renderActive (s : State) :
    exec .renderActive s = .next { s with
      phase := 7
      ren := { s.ren with pb := drawHalves (rainbowPixel s.cfg s.pos.offset) s.ren.pb } } := rfl

/-- Attenuation keeps a byte a byte. -/
theorem attenuated_toNat {n : Nat} (h : n < 256) (k : Nat) : (BitVec.ofNat 8 (n / 2 ^ k)).toNat = n / 2 ^ k := by
  rw [BitVec.toNat_ofNat]
  exact Nat.mod_eq_of_lt (lt_of_le_of_lt (Nat.div_le_self n _) h)

/-- The two samples of blue are never both in the window: they stand 432 apart, and the table has 216 entries. -/
theorem blue_samples_lt (c : Config) (x : Int) :
    (lutWindow c (x - 288)).toNat + (lutWindow c (x + 144)).toNat < 256 := by
  have hlow := (lutWindow c (x - 288)).isLt
  have hhigh := (lutWindow c (x + 144)).isLt
  by_cases hx : x < 288
  · rw [lutWindow_of_outside c (j := x - 288) (.inl (by omega))]
    simpa using hhigh
  · rw [lutWindow_of_outside c (j := x + 144) (.inr (by omega))]
    simpa using hlow

/-- The channels of a position in the Active render, in plain numbers. -/
theorem rainbowPixel_toNat (c : Config) (offset : U32) (p : Nat) :
    (rainbowPixel c offset p).r.toNat = (lutWindow c (hueIndex c offset p)).toNat / 2 ^ c.rainbowAtten ∧
    (rainbowPixel c offset p).g.toNat = (lutWindow c (hueIndex c offset p - 144)).toNat / 2 ^ c.rainbowAtten ∧
    (rainbowPixel c offset p).b.toNat = ((lutWindow c (hueIndex c offset p - 288)).toNat
      + (lutWindow c (hueIndex c offset p + 144)).toNat) / 2 ^ c.rainbowAtten ∧
    (rainbowPixel c offset p).w = 0 :=
  ⟨attenuated_toNat (BitVec.isLt _) _, attenuated_toNat (BitVec.isLt _) _,
    attenuated_toNat (blue_samples_lt c _) _, rfl⟩

/-- Settles O36: the state of `exec_renderActive`; both pixels of a position show its four samples. -/
theorem renderActiveDrawsTheRainbow : Obligations.RenderActiveDrawsTheRainbow := by
  refine fun s => ⟨_, exec_renderActive s, fun p hp => ?_, rfl, fun a ha => ?_, ?_⟩
  · intro x q hq
    rw [readPixel_drawHalves_of_position _ _ hp hq]
    exact rainbowPixel_toNat s.cfg s.pos.offset p
  · rw [read_drawHalves_beyond _ _ ha]
  · exact ⟨rfl, rfl, rfl, rfl, rfl, ⟨rfl, rfl, rfl⟩, ⟨rfl, rfl, rfl⟩⟩

/-- The offset enters the picture through the start index only. -/
theorem rainbowPixel_of_startIndex (c : Config) {o o' : U32} (h : startIndex o = startIndex o') :
    rainbowPixel c o = rainbowPixel c o' := by
  funext p
  have hhue : hueIndex c o p = hueIndex c o' p := by rw [hueIndex, hueIndex, h]
  rw [rainbowPixel, rainbowPixel, hhue]

/-- Settles O39: equal quotients by 32 are equal start indices. -/
theorem rainbowIgnoresTheLowOffsetBits : Obligations.RainbowIgnoresTheLowOffsetBits := by
  intro s t t' o hoffset h h'
  have hpixel : rainbowPixel s.cfg o = rainbowPixel s.cfg s.pos.offset := rainbowPixel_of_startIndex s.cfg hoffset
  rw [exec_pb h, exec_pb h', bufferAfter, bufferAfter, hpixel]

end Sys2Proof.Machine
end

section
/-! PROOFS for 44_sequencer.md. The phases one after another: which line of FRAME each step performs, what the polls
acknowledge and what no step after them writes; then the line and the waits. -/

namespace Sys2Proof.Machine

/-! ### The phase register (44_sequencer.md R124) -/

/-- Settles O8: `step_phase`, which goes through the eight phases of `step_cases`. -/
theorem phaseAdvancesCyclically : Obligations.PhaseAdvancesCyclically := fun _ _ => step_phase

/-! ### The line of FRAME that each phase performs (44_sequencer.md R122, R123) -/

section
variable {s : State}

/-- The part of O7 that speaks of legal phases: the step has a next state. -/
theorem step_answers (hlow : 1 ≤ s.phase.toNat) (hhigh : s.phase.toNat ≤ 8) : ∃ t, step s = .next t := by
  obtain ⟨-, hsteps⟩ := stepFaultsExactlyOnIllegalPhases
  obtain ⟨-, hlegal⟩ := hsteps s
  obtain ⟨t, ht, -⟩ := hlegal hlow hhigh
  exact ⟨t, ht⟩

/-- In a legal phase a step goes on, so the one next state that `step_cases` leaves possible there is the answer. -/
theorem step_eq_of_cases {u : State} (hlow : 1 ≤ s.phase.toNat) (hhigh : s.phase.toNat ≤ 8)
    (h : ∀ t, step s = .next t → t = u) : step s = .next u := by
  obtain ⟨t, ht⟩ := step_answers hlow hhigh
  rw [ht, h t ht]

theorem step_eq_pollCapture (h : s.phase = 1) : step s = .next (pollCapture (advance s)) :=
  step_eq_of_cases (by simp [h]) (by simp [h]) fun _ ht => by simpa [h] using step_cases ht

theorem step_eq_pollOverflow (h : s.phase = 2) : step s = .next (pollOverflow (advance s)) :=
  step_eq_of_cases (by simp [h]) (by simp [h]) fun _ ht => by simpa [h] using step_cases ht

theorem step_eq_elapsed (h : s.phase = 3) : step s = .next (elapsed (advance s)) := step_of_phase_three h

theorem step_eq_integrate (h : s.phase = 4) : step s = .next (integrate (advance s)) :=
  step_eq_of_cases (by simp [h]) (by simp [h]) fun _ ht => by simpa [h] using step_cases ht

theorem step_eq_clear (h : s.phase = 5) : step s = .next (clear (advance s)) := step_of_phase_five h

theorem step_eq_render (h : s.phase = 6) : step s = .next (render (advance s)) :=
  step_eq_of_cases (by simp [h]) (by simp [h]) fun _ ht => by simpa [h] using step_cases ht

theorem step_eq_transmit (h : s.phase = 7) : step s = .next (transmit (advance s)) := step_of_phase_seven h

theorem step_eq_settle (h : s.phase = 8) : step s = .next (settle (advance s)) := step_of_phase_eight h

end

theorem run_of_step {s t : State} (k : Nat) (h : step s = .next t) :
    Sys2Proof.core.run (k + 1) s = Sys2Proof.core.run k t := by
  have hcore : Sys2Proof.core.step s = .next t := h
  simp only [Host.Core.run, hcore]

/-- Settles O50: each line of FRAME ends in the phase whose step performs the next line. -/
theorem frameIsEightSteps : Obligations.FrameIsEightSteps := by
  intro s h
  rw [run_of_step 7 (step_eq_pollCapture h), run_of_step 6 (step_eq_pollOverflow (pollCapture_phase _)),
    run_of_step 5 (step_eq_elapsed (pollOverflow_phase _)), run_of_step 4 (step_eq_integrate (elapsed_phase _)),
    run_of_step 3 (step_eq_clear (integrate_phase _)), run_of_step 2 (step_eq_render (clear_phase _)),
    run_of_step 1 (step_eq_transmit (render_phase _)), run_of_step 0 (step_eq_settle (transmit_phase _))]
  exact congrArg Host.Outcome.next (frame_eq s).symm

/-! ### What the polls acknowledge (44_sequencer.md R128, R129) -/

theorem pollCapture_bnd (s : State) : (pollCapture s).bnd = { s.bnd with capFlag := false } := by
  unfold pollCapture
  split_ifs <;> rfl

theorem pollOverflow_bnd (s : State) : (pollOverflow s).bnd = { s.bnd with ovfFlag := false } := by
  unfold pollOverflow
  split_ifs <;> rfl

/-- Settles O58: whatever the outcome of a poll, it clears its own flag and no other. -/
theorem pollsAcknowledgeTheirEvent : Obligations.PollsAcknowledgeTheirEvent := by
  refine fun s t ht => ⟨fun h => ?_, fun h => ?_⟩
  · rw [eq_of_next ((step_eq_pollCapture h).symm.trans ht), pollCapture_bnd]
    exact ⟨rfl, rfl⟩
  · rw [eq_of_next ((step_eq_pollOverflow h).symm.trans ht), pollOverflow_bnd]
    exact ⟨rfl, rfl⟩

/-! ### The mode after the polls (44_sequencer.md R126) -/

/-- Settles O52: of the eight lines only the polls of phases 1 and 2 write the mode. -/
theorem modeStandsFromPhaseThreeOn : Obligations.ModeStandsFromPhaseThreeOn := by
  intro s t hphase ht
  rcases step_cases ht with ⟨hp, -⟩ | ⟨hp, -⟩ | ⟨-, rfl⟩ | ⟨-, rfl⟩ | ⟨-, rfl⟩ | ⟨-, rfl⟩ | ⟨-, rfl⟩ | ⟨-, rfl⟩
  case inl => exact absurd hphase (by simp [hp])
  case inr.inl => exact absurd hphase (by simp [hp])
  all_goals simp

/-! ### The line and the waits (44_sequencer.md R125, R131 to R133) -/

/-- Settles O55: setOutputLevel is `driveLine`, the update of that one register. -/
theorem setOutputLevelDrivesTheLine : Obligations.SetOutputLevelDrivesTheLine := fun _ _ => rfl

/-- The wait of `waitSlotBoundary()` ends where the slot timer has counted whole slots. -/
theorem sinceTick_add_toBoundary (s : State) :
    (s.bnd.slot.sinceTick s.cfg + toBoundary s) % s.cfg.tSlot = 0 := by
  have hslot : runSlot s.cfg (toBoundary s) s.bnd.slot = { count := 0, within := 0 } :=
    congrArg Bnd.slot (waitBoundary_bnd s)
  rw [← sinceTick_runSlot, hslot, SlotTimer.sinceTick, Nat.zero_mul, Nat.zero_add]

/-- Settles O56: the wait is `toBoundary`, and its end the state of `waitBoundary_eq`. -/
theorem waitEndsAtTheNextBoundary : Obligations.WaitEndsAtTheNextBoundary := by
  intro s
  obtain ⟨hpos, hle⟩ := toBoundary_pos s
  refine ⟨waitBoundary s, rfl, ?_, ?_, ?_, waitBoundary_eq s⟩
  · exact Nat.lt_add_of_pos_right hpos
  · exact Nat.add_le_add_left hle s.time
  · rw [waitBoundary_time, Nat.add_sub_cancel_left]
    exact sinceTick_add_toBoundary s

/-- Settles O57: both are `passTime`, which SETTLE ends in phase 1. -/
theorem delayAndSettleOnlyPassTime : Obligations.DelayAndSettleOnlyPassTime :=
  ⟨selectedBy_of_mem (by decide), fun s _ => ⟨rfl, congrArg Host.Outcome.next (settle_eq s)⟩⟩

end Sys2Proof.Machine
end

section
/-! PROOFS for 60_exceptions.md. No operation lacks a next state; and the flag `cap_seen`, which an accepted capture
raises in phase 1, holds off the timeout of phase 2. -/

namespace Sys2Proof.Machine

/-! ### Totality (60_exceptions.md R137) -/

/-- Settles O9: `exec_answers`, which goes through the constructors. -/
theorem everyOperationAnswersANextState : Obligations.EveryOperationAnswersANextState := exec_answers

/-! ### A capture and a timeout in one iteration (60_exceptions.md R142) -/

section
variable {s t : State}

theorem step_of_accepted_capture (hphase : s.phase = 1) (hflag : (advance s).bnd.capFlag = true)
    (hperiod : s.cfg.debounceTicks ≤ capturePeriod (advance s)) : step s = .next (capAccept (advance s)) := by
  rw [step_of_phase_one hphase, if_pos hflag, if_pos hperiod]
  rfl

/-- The timeout condition of phase 2 wants `cap_seen` clear (41_speed_estimator.md R95). -/
theorem step_mode_of_capSeen (hphase : s.phase = 2) (hactive : s.spd.mode = .active) (hseen : s.spd.capSeen = true)
    (h : step s = .next t) : t.spd.mode = .active := by
  cases hmode : t.spd.mode with
  | active => rfl
  | idle =>
    obtain ⟨-, hunseen, -⟩ := (timeoutConditionIsExact s t hphase hactive h).mp hmode
    exact absurd (hseen.symm.trans hunseen) (by decide)

end

/-- Settles O24: CAP.ACCEPT ends in phase 2, Active, with `cap_seen` set, and the overflow poll from there stays
Active. -/
theorem acceptedCaptureShieldsFromTimeout : Obligations.AcceptedCaptureShieldsFromTimeout := by
  intro s t u hphase hflag hperiod ht hu
  have haccepted : t = capAccept (advance s) :=
    eq_of_next ((step_of_accepted_capture hphase hflag hperiod).symm.trans ht)
  subst haccepted
  refine ⟨?_, step_mode_of_capSeen rfl (capAccept_mode _) rfl hu⟩
  rw [eq_of_next ((step_eq_pollOverflow rfl).symm.trans hu), pollOverflow_phase]

end Sys2Proof.Machine
end
